-- ==== Sys2Proof/Word.lean ====
section
/-! DEFINITION. The levels on the input ports, and the input ports of one instance at one rising edge.

Bit vectors: bit 0 is the least significant bit (00_scope.md R8, 20_memory.md R41). A register or port of
width `w` is a `BitVec w`. The spec's `sval_w(b)` is `b.toInt`, its `uval_w(b)` is `b.toNat`, and its
`sext_w(v)` for an integer `v` is `BitVec.ofInt w v`, the low `w` bits of its two's-complement form. -/

namespace Sys2Proof

/-- The level on a one-bit input port at an edge. `x` (unknown) and `z` (high impedance) are the levels that
are "not a defined 0 or 1" (30_encoding.md R54, 60_exceptions.md R83). -/
inductive Level where
  | low
  | high
  | x
  | z
  deriving DecidableEq, Repr

/-- The bit a level carries; none for a level that is not a defined 0 or 1. -/
def Level.bit? : Level → Option Bool
  | .low => some false
  | .high => some true
  | .x => none
  | .z => none

/-- The defined level of a bit. -/
def Level.ofBit : Bool → Level
  | false => .low
  | true => .high

/-- The input ports of an instance with `IN_W = w` at one rising edge of `clk` (30_encoding.md R50): `rst`,
`in_valid` and `x_in`. Bit `i` of `xUndef` is set when bit `i` of `x_in` is not a defined 0 or 1 (the bit of
`xIn` at that place then tells an unknown level from a high-impedance one and means nothing else). -/
structure Pins (w : Nat) where
  rst     : Level
  inValid : Level
  xIn     : BitVec w
  xUndef  : BitVec w
  deriving DecidableEq, Repr

end Sys2Proof
end

