-- ==== Sys2Proof/Config.lean ====
section
/-! DEFINITION. The elaboration-time parameters of an instance and the widths that follow from them
(00_scope.md R5, R6, R7; 60_exceptions.md R82). -/

namespace Sys2Proof

/-- The parameters of a LEGAL instance (00_scope.md R5). An instance outside the legal values is refused at
elaboration and "a model builds no machine for it" (60_exceptions.md R82): so legality is part of the data. -/
structure Config where
  /-- `IN_W`: width in bits of `x_in`. -/
  inW        : Nat
  /-- `HP_COEFF`, in units of 1/256 (00_scope.md R11). -/
  hpCoeff    : Nat
  /-- `LP_COEFF`, shared by both low-pass stages, in units of 1/256. -/
  lpCoeff    : Nat
  /-- `SCALE_SHIFT`, the right-shift amount of `y_scaled`. -/
  scaleShift : Nat
  inW_legal        : 2 ≤ inW
  hpCoeff_legal    : 1 ≤ hpCoeff ∧ hpCoeff ≤ 256
  lpCoeff_legal    : 1 ≤ lpCoeff ∧ lpCoeff ≤ 256
  scaleShift_legal : scaleShift ≤ inW
  deriving DecidableEq, Repr

/-- `OUT_W = IN_W + 1` (00_scope.md R6): `y_hp`, `y_lp`, `y_scaled`, `lp1_state`, `lp2_state`, `hp_out_q`. -/
abbrev Config.outW (c : Config) : Nat := c.inW + 1
/-- `ST_W = IN_W` (00_scope.md R6): `hp_state`. -/
abbrev Config.stW (c : Config) : Nat := c.inW
/-- `DIFF_W = IN_W + 2` (00_scope.md R6): any difference `input_i - state_i`. -/
abbrev Config.diffW (c : Config) : Nat := c.inW + 2
/-- `PROD_W = IN_W + 11` (00_scope.md R6): any product `(input_i - state_i) * COEFF`. -/
abbrev Config.prodW (c : Config) : Nat := c.inW + 11

/-- The parameters as an integrator writes them, before any check: any integers. -/
structure Params where
  inW        : Int
  hpCoeff    : Int
  lpCoeff    : Int
  scaleShift : Int
  deriving DecidableEq, Repr

/-- The parameters a legal instance was elaborated from. -/
def Config.params (c : Config) : Params :=
  { inW := c.inW, hpCoeff := c.hpCoeff, lpCoeff := c.lpCoeff, scaleShift := c.scaleShift }

/-- Why an instance is refused at elaboration (60_exceptions.md R82), one name for each of its four reasons.
Raised by `Machine.elaborate` only, never at run time. Safe: no machine is built. -/
inductive ElabRefusal where
  /-- `IN_W < 2` -/
  | inWTooSmall
  /-- `HP_COEFF` is not in `[1, 256]` -/
  | hpCoeffOutOfRange
  /-- `LP_COEFF` is not in `[1, 256]` -/
  | lpCoeffOutOfRange
  /-- `SCALE_SHIFT` is not in `[0, IN_W]` -/
  | scaleShiftOutOfRange
  deriving DecidableEq, Repr

/-- DESIGN CHOICE (log entry 2): the instance in which `State.reset` stands. `IN_W = 32` and `SCALE_SHIFT = 17`
are the reference configuration of 00_scope.md R5; the spec gives no reference value for the coefficients, and
16 and 128 are those of its program P6 at that configuration. No statement rests on this choice. -/
def Config.reference : Config where
  inW := 32
  hpCoeff := 16
  lpCoeff := 128
  scaleShift := 17
  inW_legal := by decide
  hpCoeff_legal := by decide
  lpCoeff_legal := by decide
  scaleShift_legal := by decide

end Sys2Proof
end

