-- ==== Sys2Proof/Syntax.lean ====
section
/-! DEFINITION. The operations of the block (30_encoding.md R52, R57; opcode_table.json), one constructor per row. -/

namespace Sys2Proof

/-- What the block does at one rising edge, chosen by its control inputs (00_scope.md R2). -/
inductive Instr where
  /-- `NOP`: hold (40_operations.md R60). -/
  | nop
  /-- `STEP x`: process one centered sample, the signed value of `x_in` (40_operations.md R61, 30_encoding.md R51). -/
  | step (x : Int)
  /-- `RESET`: clear all state (70_reset_and_hazards.md R90). `inValid` is the level of `in_valid` at the edge, the
  one bit of the control word that the row leaves open: set, the sample on `x_in` is discarded. Kept so that no bit
  of the control word is lost; no meaning reads it (log entry 14). -/
  | reset (inValid : Bool)
  deriving DecidableEq, Repr

/-- The operation's name in spec/opcode_table.json. -/
def Instr.mnemonic : Instr → String
  | .nop => "NOP"
  | .step _ => "STEP"
  | .reset _ => "RESET"

/-- One line of a test program in the notation of 30_encoding.md R57: `NOP`, `STEP <x>`, `RESET`, `RESET <x>` (the last
with the sample that is discarded). One line is one rising edge. -/
inductive Line where
  | nop
  | step (x : Int)
  | reset (sample : Option Int)
  deriving DecidableEq, Repr

end Sys2Proof
end

