-- ==== Sys2Proof/WellFormed.lean ====
section
/-! DEFINITION. Which operations an instance can be given: the operand of `STEP` is the signed value of an
`IN_W`-bit vector (30_encoding.md R51, R54). -/

namespace Sys2Proof

/-- `v` is the value of some signed vector of `w` bits: `v` is in `[-2^(w-1), 2^(w-1) - 1]`. -/
abbrev fitsSigned (w : Nat) (v : Int) : Prop :=
  -((2 ^ (w - 1) : Nat) : Int) ≤ v ∧ v ≤ ((2 ^ (w - 1) : Nat) : Int) - 1

/-- The operand range of 30_encoding.md R51; `NOP` and `RESET` have no operand. -/
def Instr.wellFormed (w : Nat) : Instr → Bool
  | .nop => true
  | .step x => decide (fitsSigned w x)
  | .reset _ => true

end Sys2Proof
end

