-- ==== Sys2Proof/Decode.lean ====
section
/-! DEFINITION. From the input ports at an edge to an operation, and back (30_encoding.md R52, R54, R56). -/

namespace Sys2Proof

/-- Why an edge selects no operation (30_encoding.md R54, 60_exceptions.md R83): a level that is not a defined 0 or
1. Raised by `decode`; `Machine.step` answers it as a refusal. Safe: the spec gives such an edge no behaviour. -/
inductive DecodeError where
  /-- `rst` is not a defined 0 or 1 at the edge. -/
  | undefinedRst
  /-- `rst` is defined and `in_valid` is not a defined 0 or 1 at the edge. -/
  | undefinedInValid
  /-- The control word selects `STEP` and some bit of `x_in` is not a defined 0 or 1 at the edge. -/
  | undefinedXIn
  deriving DecidableEq, Repr

/-- The operation the ports select (30_encoding.md R52): `rst` takes precedence over `in_valid`, and `x_in` matters
only for `STEP`. Where several levels are undefined, the spec gives no order among the reasons; the model names the
first of `rst`, `in_valid`, `x_in` (DESIGN CHOICE, log entry 20). Undefined bits of `x_in` are refused on a `STEP` only,
as 60_exceptions.md R83 words it; R54 names no operation (DEDUCED, log entry 7). -/
def decode {w : Nat} (p : Pins w) : Except DecodeError Instr :=
  match p.rst.bit?, p.inValid.bit? with
  | none, _ => .error .undefinedRst
  | some _, none => .error .undefinedInValid
  | some false, some false => .ok .nop
  | some false, some true => if p.xUndef = 0#w then .ok (.step p.xIn.toInt) else .error .undefinedXIn
  | some true, some v => .ok (.reset v)

/-- The ports that select an operation, in the notation of 30_encoding.md R57: `x_in = sext_IN_W(x)` for `STEP x`;
`NOP` and `RESET` ignore `x_in`, and zero is put on it. -/
def encode (w : Nat) : Instr → Pins w
  | .nop => { rst := .low, inValid := .low, xIn := 0#w, xUndef := 0#w }
  | .step x => { rst := .low, inValid := .high, xIn := BitVec.ofInt w x, xUndef := 0#w }
  | .reset v => { rst := .high, inValid := Level.ofBit v, xIn := 0#w, xUndef := 0#w }

/-- The control word `ctl = {rst, in_valid}`, `rst` the high bit; none where one of the two is undefined. -/
def Pins.ctl? {w : Nat} (p : Pins w) : Option (BitVec 2) :=
  match p.rst.bit?, p.inValid.bit? with
  | some r, some v => some (BitVec.ofBool r ++ BitVec.ofBool v)
  | _, _ => none

/-- One row of opcode_table.json in the decoder form of 30_encoding.md R52: mask and match over `ctl[1:0]`. -/
structure OpRow where
  mnemonic : String
  mask     : BitVec 2
  value    : BitVec 2
  deriving DecidableEq, Repr

def OpRow.hits (r : OpRow) (ctl : BitVec 2) : Bool := ctl &&& r.mask == r.value

/-- The decoder form of 30_encoding.md R52. -/
def opRows : List OpRow :=
  [ { mnemonic := "NOP",   mask := 0b11#2, value := 0b00#2 },
    { mnemonic := "STEP",  mask := 0b11#2, value := 0b01#2 },
    { mnemonic := "RESET", mask := 0b10#2, value := 0b10#2 } ]

/-- The ports as one word: bit 0 is `in_valid`, bit 1 is `rst` (the numbering of opcode_table.json over `ctl`), and
the bits of `x_in` follow from bit 2 up. DESIGN CHOICE (log entry 6): the spec presents `ctl` and `x_in` together
(30_encoding.md R56) and numbers no bit of `x_in` beside `ctl`. -/
def Pins.ofWord (w word : Nat) : Pins w :=
  { rst := Level.ofBit (word.testBit 1), inValid := Level.ofBit (word.testBit 0)
    xIn := BitVec.ofNat w (word / 4), xUndef := 0#w }

/-- The word of ports whose levels are all defined; the inverse of `Pins.ofWord` there. -/
def Pins.toWord {w : Nat} (p : Pins w) : Nat :=
  (if p.inValid = .high then 1 else 0) + (if p.rst = .high then 2 else 0) + 4 * p.xIn.toNat

/-- The operation the decoder reads from a word of `nbits` bits, the bits above them zero, at `IN_W` of the
reference configuration (log entry 6). -/
def decodeTableWord (nbits w : Nat) : Option Instr :=
  match decode (Pins.ofWord Config.reference.inW (w % 2 ^ nbits)) with
  | .ok i => some i
  | .error _ => none

/-! ## The textual notation of 30_encoding.md R57 -/

/-- The ports a line stands for: `x_in = sext_IN_W(<x>)` where the line has an `<x>`, and zero where it has none (the
block ignores it there, R60, R90). -/
def Line.pins (w : Nat) : Line → Pins w
  | .nop => { rst := .low, inValid := .low, xIn := 0#w, xUndef := 0#w }
  | .step x => { rst := .low, inValid := .high, xIn := BitVec.ofInt w x, xUndef := 0#w }
  | .reset none => { rst := .high, inValid := .low, xIn := 0#w, xUndef := 0#w }
  | .reset (some x) => { rst := .high, inValid := .high, xIn := BitVec.ofInt w x, xUndef := 0#w }

/-- A line as it is written. -/
def Line.text : Line → String
  | .nop => "NOP"
  | .step x => "STEP " ++ toString x
  | .reset none => "RESET"
  | .reset (some x) => "RESET " ++ toString x

/-- The upper-case digit of a number below 16. -/
def hexDigit (n : Nat) : Char := "0123456789ABCDEF".toList.getD n '?'

/-- The last `k` hexadecimal digits of a number, the most significant first. -/
def hexDigits : Nat → Nat → List Char
  | 0, _ => []
  | k + 1, n => hexDigits k (n / 16) ++ [hexDigit (n % 16)]

/-- A level as one character: `0`, `1`, `X` or `Z`. -/
def Level.text : Level → String
  | .low => "0"
  | .high => "1"
  | .x => "X"
  | .z => "Z"

/-- The encoding of a line as it is written: `ctl=<2 bits> x_in=0x<hex of IN_W bits>`. -/
def Pins.text {w : Nat} (p : Pins w) : String :=
  "ctl=" ++ p.rst.text ++ p.inValid.text ++ " x_in=0x" ++ String.ofList (hexDigits ((w + 3) / 4) p.xIn.toNat)

end Sys2Proof
end

