-- ==== Sys2Proof/Machine/State.lean ====
section
/-! DEFINITION. The state of one instance, the reasons a step can stop, and the state right after reset. -/

namespace Sys2Proof.Machine

/-- The block raises no exception, at run time or otherwise (60_exceptions.md R80): no constructor, and nobody
raises one (log entry 12). -/
inductive Fault
  deriving DecidableEq, Repr

/-- Why the model gives an edge no next state. -/
inductive Refusal where
  /-- Raised by `exec`'s arm of an operation that has no meaning yet. Safe. No arm raises it now. -/
  | notModelled (mnemonic : String)
  /-- Raised by `step`: a level on `rst`, `in_valid`, or on a `STEP` on a bit of `x_in`, is not a defined 0 or 1
  (60_exceptions.md R83). Safe: the spec gives no behaviour. -/
  | undefinedLevel (reason : DecodeError)
  /-- Raised by `STEP` and `NOP` before the first `RESET` after power-up (60_exceptions.md R83). Safe. -/
  | beforeFirstReset
  /-- Raised by `readOutputs`: a read of an output port before the first `RESET` (60_exceptions.md R83). Safe. -/
  | readBeforeFirstReset
  /-- Raised by `step`, in a state that is not marked refused, when the host presents no further edge: the run has
  ended (70_reset_and_hazards.md R99; log entry 4). Safe: nothing is said of a state after the run. -/
  | runEnded
  deriving DecidableEq, Repr

/-- The state of one instance: the five registers of 10_state.md R20, each at its width, and what the model
carries beside them. R29: the block has no hidden state beyond the five registers. -/
structure State where
  /-- The parameters the instance was elaborated with; no step changes them (00_scope.md R7; log entry 1). -/
  cfg       : Config
  /-- `hp_state`, `IN_W` bits, signed (10_state.md R22). -/
  hpState   : BitVec cfg.inW
  /-- `lp1_state`, `IN_W + 1` bits, signed (10_state.md R23). -/
  lp1State  : BitVec (cfg.inW + 1)
  /-- `lp2_state`, `IN_W + 1` bits, signed (10_state.md R24). -/
  lp2State  : BitVec (cfg.inW + 1)
  /-- `hp_out_q`, `IN_W + 1` bits, signed (10_state.md R25). -/
  hpOutQ    : BitVec (cfg.inW + 1)
  /-- `out_valid_q`, the only status flag (10_state.md R26). -/
  outValidQ : Bool
  /-- The first `RESET` edge after power-up has passed. While this is false the five registers are unwritten
  (10_state.md R31): whatever bits stand in them mean nothing, and every read and every operation but `RESET` is
  refused (60_exceptions.md R83; log entry 3). -/
  resetSeen : Bool
  /-- What the host presents on the input ports at the coming rising edges, the next edge first
  (70_reset_and_hazards.md R99; log entry 4). -/
  edges     : List (Pins cfg.inW)
  /-- The mark of 60_exceptions.md R83: the refusal that this run has met, none in a run within the contract. A marked
  state stays refused "for the rest of the run": every edge and every read of the outputs answers that refusal (log
  entry 10). -/
  refused   : Option Refusal
  deriving DecidableEq, Repr

/-- The machine right after a `RESET` edge: every register at the value of 10_state.md R30, in the instance of
`Config.reference` (log entry 2), with no edge presented yet (log entry 4) and nothing refused. -/
def State.reset : State where
  cfg := Config.reference
  hpState := 0#32
  lp1State := 0#33
  lp2State := 0#33
  hpOutQ := 0#33
  outValidQ := false
  resetSeen := true
  edges := []
  refused := none

end Sys2Proof.Machine
end

