-- ==== Sys2Proof/Machine/Ops.lean ====
section
/-! DEFINITION. The operations the meanings share: the arithmetic of the stages, the writes of registers, the guard
before the first `RESET`, and taking the next edge from the ports.

The block has no memory (20_memory.md R40) and takes no exception and returns from none (60_exceptions.md R80, R85),
so there is no memory operation and no exception entry here. -/

namespace Sys2Proof.Machine

/-- `floor_shr(v, n) = floor(v / 2^n)` (00_scope.md R8): division by a positive number rounds toward minus infinity. -/
def floorShr (v : Int) (n : Nat) : Int := v / ((2 ^ n : Nat) : Int)

/-- The stage function shared by all three stages (40_operations.md R63), in exact integers. -/
def track (s u : Int) (coeff : Nat) : Int := s + floorShr ((u - s) * coeff) 8

/-- An integer as it stands in a register or port of `w` bits. At the widths of 00_scope.md R6 nothing is cut off
(40_operations.md R70; log entry 13). -/
def narrow (w : Nat) (v : Int) : BitVec w := BitVec.ofInt w v

/-- The intermediates of one `STEP` (40_operations.md R61), as integers. -/
structure StepValues where
  hpNew  : Int
  hpOut  : Int
  lp1New : Int
  lp2New : Int
  deriving DecidableEq, Repr

/-- The sequence of 40_operations.md R61: the high-pass tracker first, then the high-passed signal from the updated
tracker (R62), then low-pass 1 (R65), then low-pass 2 from low-pass 1's fresh value (R66). -/
def stepValues (c : Config) (hp lp1 lp2 x : Int) : StepValues :=
  let hpNew := track hp x c.hpCoeff
  let hpOut := x - hpNew
  let lp1New := track lp1 hpOut c.lpCoeff
  let lp2New := track lp2 lp1New c.lpCoeff
  { hpNew := hpNew, hpOut := hpOut, lp1New := lp1New, lp2New := lp2New }

/-- Write the four filter registers together, at one edge (00_scope.md R9). -/
def State.withFilter (s : State) (v : StepValues) : State :=
  { s with
    hpState := narrow s.cfg.inW v.hpNew
    lp1State := narrow (s.cfg.inW + 1) v.lp1New
    lp2State := narrow (s.cfg.inW + 1) v.lp2New
    hpOutQ := narrow (s.cfg.inW + 1) v.hpOut }

/-- Clear the four filter registers together (70_reset_and_hazards.md R90). -/
def State.withFilterCleared (s : State) : State :=
  { s with hpState := 0#_, lp1State := 0#_, lp2State := 0#_, hpOutQ := 0#_ }

/-- Write `out_valid_q`. -/
def State.withOutValid (s : State) (b : Bool) : State := { s with outValidQ := b }

/-- The registers are written from now on (10_state.md R31, 70_reset_and_hazards.md R90). -/
def State.withResetSeen (s : State) : State := { s with resetSeen := true }

/-- Replace what the host presents at the coming edges. -/
def State.withEdges (s : State) (es : List (Pins s.cfg.inW)) : State := { s with edges := es }

/-- Mark the state refused for the rest of the run (60_exceptions.md R83). -/
def State.withRefused (s : State) (r : Refusal) : State := { s with refused := some r }

/-- The refusals of 60_exceptions.md R83, which mark the state for the rest of the run. The model's own two do not:
`runEnded` says only that there is no edge to take. -/
def Refusal.marksTheRun : Refusal → Bool
  | .undefinedLevel _ => true
  | .beforeFirstReset => true
  | .readBeforeFirstReset => true
  | _ => false

/-- `next` once the registers are written; before the first `RESET` after power-up, the refusal of
60_exceptions.md R83. -/
def whenWritten (s next : State) : Host.Outcome State Fault Refusal :=
  match s.resetSeen with
  | true => .next next
  | false => .refused .beforeFirstReset

/-- An instance at power-up, before the first `RESET` (10_state.md R31, 70_reset_and_hazards.md R93): the registers
hold no defined value, so what stands in them is an argument that nothing constrains (log entry 3). -/
def powerUp (c : Config) (hp : BitVec c.inW) (lp1 lp2 hpOut : BitVec (c.inW + 1)) (valid : Bool)
    (es : List (Pins c.inW)) : State where
  cfg := c
  hpState := hp
  lp1State := lp1
  lp2State := lp2
  hpOutQ := hpOut
  outValidQ := valid
  resetSeen := false
  edges := es
  refused := none

/-- Take the next edge: the operation its ports select (30_encoding.md R52), and the state with that edge taken
off the list. Refused in a state already marked refused (60_exceptions.md R83), in a run that has ended, and at an
undefined level. DESIGN CHOICE (log entry 20): where several refusals hold at one edge the spec gives no order among
them; the model looks for the mark first, then for an edge, then at the levels, and `whenWritten` comes last, so an
undefined level before the first `RESET` is refused as `undefinedLevel`. -/
def fetch (s : State) : Except Refusal (Instr × State) :=
  match s.refused, s.edges with
  | some r, _ => .error r
  | none, [] => .error .runEnded
  | none, p :: rest =>
    match decode p with
    | .error r => .error (.undefinedLevel r)
    | .ok i => .ok (i, s.withEdges rest)

/-- Present a word (its bits numbered as `Pins.ofWord` numbers them) at the next edge, in place of what stood there. -/
def presentWord (s : State) (word : Nat) : State :=
  s.withEdges (Pins.ofWord s.cfg.inW word :: s.edges.tail)

end Sys2Proof.Machine
end

