-- ==== Sys2Proof/Machine/Flags.lean ====
section
/-! DEFINITION. The only status flag, `out_valid_q` (10_state.md R26). The block has no condition codes, no overflow,
saturation or error flag. -/

namespace Sys2Proof.Machine

/-- `out_valid_q` after an edge: a `STEP` edge sets it, a `NOP` or `RESET` edge clears it (10_state.md R26). -/
def outValidAfter : Instr → Bool
  | .nop => false
  | .step _ => true
  | .reset _ => false

end Sys2Proof.Machine
end

