-- ==== Sys2Proof/Machine/Operands.lean ====
section
/-! DEFINITION. The one operand form of the block: `x_in` (30_encoding.md R51, R55). -/

namespace Sys2Proof.Machine

/-- The integer the high-pass stage reads for `STEP x`: `x` is put on the `IN_W`-bit port (30_encoding.md R57) and
read back signed (R51). For every `x` the port can carry this is `x` itself; a number outside that range cannot be
presented to the block (log entry 8). -/
def centeredSample (c : Config) (x : Int) : Int := (narrow c.inW x).toInt

end Sys2Proof.Machine
end

