-- ==== Sys2Proof/Machine/Filter.lean ====
section
/-! DEFINITION. The meanings of `NOP`, `STEP` (40_operations.md) and `RESET` (70_reset_and_hazards.md). -/

namespace Sys2Proof.Machine

/-- `NOP` (40_operations.md R60): clears `out_valid_q`; the filter registers keep their values.
70_reset_and_hazards.md R98 says of a `NOP` that it does not "affect state"; the model follows R60's pseudocode, and
reads R98 as saying no more than R60 (log entry 21). -/
def execNop (s : State) : Host.Outcome State Fault Refusal :=
  whenWritten s (s.withOutValid (outValidAfter .nop))

/-- `STEP x` (40_operations.md R61, R68): the four filter registers take the values of the three stages, computed from
the registers as they stood before the edge, and `out_valid_q` is set. -/
def execStep (x : Int) (s : State) : Host.Outcome State Fault Refusal :=
  whenWritten s
    ((s.withFilter
        (stepValues s.cfg s.hpState.toInt s.lp1State.toInt s.lp2State.toInt (centeredSample s.cfg x))).withOutValid
      (outValidAfter (.step x)))

/-- `RESET` (70_reset_and_hazards.md R90, 10_state.md R30): clears all five registers, whatever they held, with the
sample on `x_in` discarded when `in_valid` is 1 (60_exceptions.md R84). The first one gives meaning to every register.
70_reset_and_hazards.md R98 lists a `RESET` among what does not "affect state"; the model follows R90's pseudocode, and
reads R98 as leave for the host to `RESET` at any edge (log entry 21). -/
def execReset (inValid : Bool) (s : State) : Host.Outcome State Fault Refusal :=
  .next
    ((s.withFilterCleared.withOutValid (outValidAfter (.reset inValid))).withResetSeen)

end Sys2Proof.Machine
end

