-- ==== Sys2Proof/Machine/Dispatch.lean ====
section
/-! DEFINITION. One arm per operation. -/

namespace Sys2Proof.Machine

def exec (i : Instr) (s : State) : Host.Outcome State Fault Refusal :=
  match i with
  | .nop => Sys2Proof.Machine.execNop s
  | .step x => Sys2Proof.Machine.execStep x s
  | .reset inValid => Sys2Proof.Machine.execReset inValid s

end Sys2Proof.Machine
end

