-- ==== Sys2Proof/Machine/Step.lean ====
section
/-! DEFINITION. One step of the machine: one rising edge of `clk` (00_scope.md R2, 30_encoding.md R52,
20_memory.md R45). -/

namespace Sys2Proof.Machine

/-- One rising edge: take the ports at that edge, and do the operation they select. Which refusal is answered where an
edge meets more than one of 60_exceptions.md R83's conditions is the model's choice (log entry 20, `fetch`). -/
def step (s : State) : Host.Outcome State Fault Refusal :=
  match fetch s with
  | .error r => .refused r
  | .ok (i, s') => exec i s'

/-- `s` with the operation whose word is `w` (its low `nbits` bits, zero above) presented at the next edge
(log entry 5). -/
def State.withFetchWord (s : State) (nbits w : Nat) : State := presentWord s (w % 2 ^ nbits)

end Sys2Proof.Machine
end

