-- ==== Sys2Proof/Machine/Elaboration.lean ====
section
/-! DEFINITION. Elaborating an instance (60_exceptions.md R82, 70_reset_and_hazards.md R93), and the stage function as
a datapath of given widths computes it (00_scope.md R6). -/

namespace Sys2Proof.Machine

/-- The check at elaboration: a legal instance, or the first of the four reasons of 60_exceptions.md R82 that holds. -/
def elaborate (p : Params) : Except ElabRefusal Config :=
  if hw : p.inW < 2 then .error .inWTooSmall
  else if hh : ¬ (1 ≤ p.hpCoeff ∧ p.hpCoeff ≤ 256) then .error .hpCoeffOutOfRange
  else if hl : ¬ (1 ≤ p.lpCoeff ∧ p.lpCoeff ≤ 256) then .error .lpCoeffOutOfRange
  else if hs : ¬ (0 ≤ p.scaleShift ∧ p.scaleShift ≤ p.inW) then .error .scaleShiftOutOfRange
  else
    .ok
      { inW := p.inW.toNat
        hpCoeff := p.hpCoeff.toNat
        lpCoeff := p.lpCoeff.toNat
        scaleShift := p.scaleShift.toNat
        inW_legal := by omega
        hpCoeff_legal := by omega
        lpCoeff_legal := by omega
        scaleShift_legal := by omega }

/-- The stage function as a datapath computes it when it holds the difference in `dW` bits and the product in `pW`
bits. "An implementation may use wider intermediates. It may not use narrower ones" (00_scope.md R6). -/
def trackAtWidths (dW pW : Nat) (s u : Int) (coeff : Nat) : Int :=
  s + floorShr (narrow pW ((narrow dW (u - s)).toInt * coeff)).toInt 8

end Sys2Proof.Machine
end

