-- ==== Sys2Proof/Machine/Ports.lean ====
section
/-! DEFINITION. The output ports (30_encoding.md R50, R53) and what a reader of them may see. -/

namespace Sys2Proof.Machine

/-- The output ports of an instance with `IN_W = w`, each a signed vector of `IN_W + 1` bits, and `out_valid`. -/
structure Outputs (w : Nat) where
  yHp      : BitVec (w + 1)
  yLp      : BitVec (w + 1)
  yScaled  : BitVec (w + 1)
  outValid : Bool
  deriving DecidableEq, Repr

/-- `y_scaled = floor_shr(lp2_state, SCALE_SHIFT)` as a vector of `IN_W + 1` bits (40_operations.md R67). -/
def scaledOutput (s : State) : BitVec (s.cfg.inW + 1) :=
  narrow (s.cfg.inW + 1) (floorShr s.lp2State.toInt s.cfg.scaleShift)

/-- What the output ports drive between two edges: a function of the registers alone, with no side effect when read
(30_encoding.md R50, R53; 20_memory.md R43). Before the first `RESET` a read is refused, and so it is in a state already
marked refused (60_exceptions.md R83). This is the value alone; a read as an act of the host is `readPorts`. -/
def readOutputs (s : State) : Except Refusal (Outputs s.cfg.inW) :=
  match s.refused, s.resetSeen with
  | some r, _ => .error r
  | none, true => .ok { yHp := s.hpOutQ, yLp := s.lp2State, yScaled := scaledOutput s, outValid := s.outValidQ }
  | none, false => .error .readBeforeFirstReset

/-- One entry of a run's observation, `(y_hp, y_lp, y_scaled, out_valid)` (70_reset_and_hazards.md R99), the three
signed ports by their values. -/
structure Observation where
  yHp      : Int
  yLp      : Int
  yScaled  : Int
  outValid : Bool
  deriving DecidableEq, Repr

def Outputs.observed {w : Nat} (o : Outputs w) : Observation :=
  { yHp := o.yHp.toInt, yLp := o.yLp.toInt, yScaled := o.yScaled.toInt, outValid := o.outValid }

/-- What a reader sees on the ports between edges, by value. -/
def observedOutputs (s : State) : Except Refusal Observation :=
  match readOutputs s with
  | .ok o => .ok o.observed
  | .error r => .error r

/-- The host reads the outputs between edges (70_reset_and_hazards.md R98): the observation, and the state after.
Reading has no side effect (20_memory.md R43); a refused read marks the state refused for the rest of the run
(60_exceptions.md R83). -/
def readPorts (s : State) : Except Refusal Observation × State :=
  match observedOutputs s with
  | .ok o => (.ok o, s)
  | .error r => (.error r, s.withRefused r)

/-- A reader that samples exactly at the edge from `before` to `after` sees, on each port whole, the old or the new
value: "both are admitted" (70_reset_and_hazards.md R94, 20_memory.md R43; log entry 9). -/
def Observation.admittedAtEdge (seen before after : Observation) : Bool :=
  (seen.yHp == before.yHp || seen.yHp == after.yHp) &&
  (seen.yLp == before.yLp || seen.yLp == after.yLp) &&
  (seen.yScaled == before.yScaled || seen.yScaled == after.yScaled) &&
  (seen.outValid == before.outValid || seen.outValid == after.outValid)

end Sys2Proof.Machine
end

