-- ==== Sys2Proof/Machine/Run.lean ====
section
/-! DEFINITION. The observation of a run (70_reset_and_hazards.md R99), what the host does in a run, edges and reads
(R98, 60_exceptions.md R83), and several instances on one clock (10_state.md R33). -/

namespace Sys2Proof.Machine

/-- The observation of the first `n` edges of a run: the outputs after each edge, by value. It ends early where a
step or a read is refused (log entry 10). -/
def observe : Nat → State → List Observation
  | 0, _ => []
  | n + 1, s =>
    match step s with
    | .next t =>
      match observedOutputs t with
      | .ok o => o :: observe n t
      | .error _ => []
    | .fault _ => []
    | .refused _ => []

/-- What the host does, one act after another: let the next rising edge come, or read the outputs between edges
(70_reset_and_hazards.md R98). -/
inductive HostAct where
  | edge
  | read
  deriving DecidableEq, Repr

/-- One act of the host: what it is answered (an observation for a read, nothing for an edge, or the refusal), and the
state after it. A refusal of 60_exceptions.md R83, of an edge or of a read, leaves the state marked refused for the rest
of the run (log entry 10); at an edge nothing else of the state changes then, and the edge is not taken. -/
def hostAct (s : State) : HostAct → Except Refusal (Option Observation) × State
  | .edge =>
    match step s with
    | .next t => (.ok none, t)
    | .fault f => nomatch f
    | .refused r => (.error r, if r.marksTheRun then s.withRefused r else s)
  | .read =>
    match readPorts s with
    | (.ok o, t) => (.ok (some o), t)
    | (.error r, t) => (.error r, t)

/-- The acts of a run in order: the answers, and the state after the last. -/
def hostActs (s : State) : List HostAct → List (Except Refusal (Option Observation)) × State
  | [] => ([], s)
  | a :: acts =>
    let (answer, t) := hostAct s a
    let (answers, u) := hostActs t acts
    (answer :: answers, u)

/-- Several instances driven by the same clock, each stepping by itself: they share no state (10_state.md R33;
log entry 15). -/
def stepInstances (ms : List State) : List (Host.Outcome State Fault Refusal) := ms.map step

end Sys2Proof.Machine
end

