-- ==== Sys2Proof/Safety.lean ====
section
/-! DEFINITION. The terms claims are made in: the register ranges of 10_state.md R32, which ports are within the
contract, and the precondition under which 32-bit software computes what the block computes. -/

namespace Sys2Proof.Machine

/-- The range that `hp_out_q`, `lp1_state` and `lp2_state` stay in (10_state.md R32): `[-(2^IN_W - 2), 2^IN_W - 1]`.
It is narrower than the `IN_W + 1` bits that hold them. -/
abbrev inSignalRange (w : Nat) (v : Int) : Prop :=
  -(((2 ^ w : Nat) : Int) - 2) ≤ v ∧ v ≤ ((2 ^ w : Nat) : Int) - 1

/-- The three ranges of 10_state.md R32. -/
abbrev State.InRange (s : State) : Prop :=
  fitsSigned s.cfg.inW s.hpState.toInt ∧
  inSignalRange s.cfg.inW s.hpOutQ.toInt ∧
  inSignalRange s.cfg.inW s.lp1State.toInt ∧
  inSignalRange s.cfg.inW s.lp2State.toInt

end Sys2Proof.Machine

namespace Sys2Proof

/-- The ports select an operation: `rst` and `in_valid` are defined, and on a `STEP` every bit of `x_in` is
(60_exceptions.md R83, first item, turned round; log entry 7). -/
def Pins.inContract {w : Nat} (p : Pins w) : Bool :=
  p.rst.bit?.isSome && p.inValid.bit?.isSome &&
    (!(p.rst.bit? == some false && p.inValid.bit? == some true) || p.xUndef == 0#w)

/-- The ports select `RESET`: `rst = 1`, `in_valid` defined. -/
def Pins.isReset {w : Nat} (p : Pins w) : Bool := p.rst.bit? == some true && p.inValid.bit?.isSome

/-- The ports select `NOP`: `rst = 0`, `in_valid = 0`, anything on `x_in`. -/
def Pins.isNop {w : Nat} (p : Pins w) : Bool := p.rst.bit? == some false && p.inValid.bit? == some false

/-- The ports select `STEP`: `rst = 0`, `in_valid = 1`. -/
def Pins.isStep {w : Nat} (p : Pins w) : Bool := p.rst.bit? == some false && p.inValid.bit? == some true

/-- `HOST_ONE_STEP_PER_TICK` (93_implementation_defined.md U11, 70_reset_and_hazards.md R97): of the edges of each
sampling tick, exactly one is a `STEP`. A duty of the host that the block does not check; a claim about the audio
pipeline names it as a premise. -/
def hostOneStepPerTick {w : Nat} (ticks : List (List (Pins w))) : Bool :=
  ticks.all (fun edges => (edges.filter Pins.isStep).length == 1)

end Sys2Proof

namespace Sys2Proof.Machine

/-- The values of a 32-bit software `int`. -/
abbrev fitsInt32 (v : Int) : Prop := fitsSigned 32 v

/-- The stage function as software with a 32-bit `int` computes it: none where the difference or the product
overflows, since that is undefined there (93_implementation_defined.md U6; log entry 17). -/
def software32Track (s u : Int) (coeff : Nat) : Option Int :=
  if fitsInt32 (u - s) ∧ fitsInt32 ((u - s) * coeff) then some (track s u coeff) else none

/-- One sample in that software: the same stages in the same order. -/
def software32Step (c : Config) (hp lp1 lp2 x : Int) : Option StepValues := do
  let hpNew ← software32Track hp x c.hpCoeff
  let hpOut := x - hpNew
  if fitsInt32 hpOut then
    let lp1New ← software32Track lp1 hpOut c.lpCoeff
    let lp2New ← software32Track lp2 lp1New c.lpCoeff
    some { hpNew := hpNew, hpOut := hpOut, lp1New := lp1New, lp2New := lp2New }
  else none

/-- `SW32_NO_OVERFLOW` for one `STEP` (93_implementation_defined.md U6): at every stage the difference, the product
and the high-passed signal lie in `[-2^31, 2^31 - 1]`. -/
abbrev Software32NoOverflow (c : Config) (hp lp1 lp2 x : Int) : Prop :=
  let v := stepValues c hp lp1 lp2 x
  fitsInt32 (x - hp) ∧ fitsInt32 ((x - hp) * c.hpCoeff) ∧ fitsInt32 v.hpOut ∧
  fitsInt32 (v.hpOut - lp1) ∧ fitsInt32 ((v.hpOut - lp1) * c.lpCoeff) ∧
  fitsInt32 (v.lp1New - lp2) ∧ fitsInt32 ((v.lp1New - lp2) * c.lpCoeff)

end Sys2Proof.Machine
end

