-- ==== Sys2Proof/Certificates/Slice0/Obligations.lean ====
section
/-! DEFINITION. The statements for the provers. Every statement about a state holds for every legal instance: the
parameters stand in the state (log entry 1), and nothing rests on the instance of `State.reset`. The premise
`s.refused = none` says that the run has met none of the refusals of 60_exceptions.md R83 so far;
`RefusalsOutsideTheContract` says what happens in a state that is marked. -/

open Sys2Proof Sys2Proof.Machine

/-! ## Decoding the control word -/

/-- 30_encoding.md R52: the control word selects exactly one operation, `rst` takes precedence over `in_valid`, `x_in`
matters only for `STEP`, and the decoder form (mask and match over `ctl`) says the same.
The map is the spec's decision D3, the precedence its D12 (92_eei_decisions.md). That `NOP` and `RESET` decode also with
undefined bits on `x_in` is the model's reading, DEDUCED (log entry 7). -/
def Obligations.ControlWordSelectsOneOperation : Prop :=
  (∀ (w : Nat) (p : Pins w),
    (p.rst.bit? = some false → p.inValid.bit? = some false → decode p = .ok .nop) ∧
    (p.rst.bit? = some false → p.inValid.bit? = some true → p.xUndef = 0#w →
      decode p = .ok (.step p.xIn.toInt)) ∧
    (∀ v, p.rst.bit? = some true → p.inValid.bit? = some v → decode p = .ok (.reset v)) ∧
    (∀ i, decode p = .ok i → ∃ r v, p.rst.bit? = some r ∧ p.inValid.bit? = some v ∧
      (opRows.filter (fun row => row.hits (BitVec.ofBool r ++ BitVec.ofBool v))).map OpRow.mnemonic = [i.mnemonic])) ∧
  (∀ ctl : BitVec 2, (opRows.filter (fun row => row.hits ctl)).length = 1)

/-- No encoding is reserved and every value of `x_in` is a legal operand (30_encoding.md R54), so the decoder gives an
operation for ports within the contract of 60_exceptions.md R83; it refuses a control input, or on a `STEP` an `x_in`
bit, that is not a defined 0 or 1. That an undefined bit of `x_in` is refused on a `STEP` only is R83's and the model's
reading of it, DEDUCED (log entry 7).
That all codes are used is the spec's decision D3, the refusal its D20. -/
def Obligations.DecodesExactlyWithinContract : Prop :=
  ∀ (w : Nat) (p : Pins w),
    (p.inContract = true → ∃ i, decode p = .ok i) ∧
    (p.inContract = false → ∃ r, decode p = .error r)

/-- Decode and encode agree for every operation, at every operand the port admits (30_encoding.md R51, R52, R57). -/
def Obligations.DecodeOfEncodeIsIdentity : Prop :=
  ∀ (c : Config) (i : Instr), i.wellFormed c.inW = true → decode (encode c.inW i) = .ok i

/-- The other direction: what the decoder gives is well-formed, its encoding has the same control word, and for a
`STEP` it is the same ports, bit for bit. -/
def Obligations.EncodeOfDecodedKeepsTheWord : Prop :=
  ∀ (c : Config) (p : Pins c.inW) (i : Instr), decode p = .ok i →
    i.wellFormed c.inW = true ∧ (encode c.inW i).ctl? = p.ctl? ∧ (∀ x, i = .step x → encode c.inW i = p)

/-- Words written out from 30_encoding.md R52 and the encodings of 95_test_vectors.md (P1, P3, P6).
The layout that `decodeTableWord` reads is the model's choice, log entry 6. -/
def Obligations.WrittenOutWordsDecode : Prop :=
  decode (w := 16) { rst := .low, inValid := .low, xIn := 0x0000#16, xUndef := 0#16 } = .ok .nop ∧
  decode (w := 16) { rst := .low, inValid := .high, xIn := 0x03E8#16, xUndef := 0#16 } = .ok (.step 1000) ∧
  decode (w := 16) { rst := .low, inValid := .high, xIn := 0xFF9C#16, xUndef := 0#16 } = .ok (.step (-100)) ∧
  decode (w := 8) { rst := .low, inValid := .high, xIn := 0x80#8, xUndef := 0#8 } = .ok (.step (-128)) ∧
  decode (w := 16) { rst := .high, inValid := .low, xIn := 0x0000#16, xUndef := 0#16 } = .ok (.reset false) ∧
  decode (w := 16) { rst := .high, inValid := .high, xIn := 0x03E8#16, xUndef := 0#16 } = .ok (.reset true) ∧
  decodeTableWord 8 0b00 = some .nop ∧ decodeTableWord 8 0b01 = some (.step 0) ∧
  decodeTableWord 8 0b10 = some (.reset false) ∧ decodeTableWord 8 0b11 = some (.reset true)

/-- 30_encoding.md R57: what each line of the textual notation stands for.
The notation is the spec's decision D17. -/
def Obligations.NotationStandsForItsPorts : Prop :=
  ∀ (c : Config) (x : Int), Instr.wellFormed c.inW (.step x) = true →
    decode (Line.nop.pins c.inW) = .ok .nop ∧
    decode ((Line.step x).pins c.inW) = .ok (.step x) ∧
    decode ((Line.reset none).pins c.inW) = .ok (.reset false) ∧
    decode ((Line.reset (some x)).pins c.inW) = .ok (.reset true) ∧
    ((Line.step x).pins c.inW).xIn.toInt = x ∧ ((Line.reset (some x)).pins c.inW).xIn.toInt = x

/-! ## One edge -/

/-- One step is one rising edge: it takes the ports of the next edge off the list and does the operation they select
(30_encoding.md R52, 20_memory.md R45); `withFetchWord` puts a word's operation at the next edge.
The list of edges and the word are the model's choices, log entries 4, 5 and 6. -/
def Obligations.StepRunsTheDecodedOperation : Prop :=
  (∀ (s : State) (p : Pins s.cfg.inW) (rest : List (Pins s.cfg.inW)) (i : Instr),
    s.refused = none → s.edges = p :: rest → decode p = .ok i → step s = exec i { s with edges := rest }) ∧
  (∀ (s : State) (nbits w : Nat) (i : Instr),
    s.refused = none → decode (Pins.ofWord s.cfg.inW (w % 2 ^ nbits)) = .ok i →
    step (s.withFetchWord nbits w) = exec i { s with edges := s.edges.tail })

/-- 40_operations.md R60: `NOP` has no operand and ignores `x_in`, whatever stands on it; it clears `out_valid_q`,
writes nothing else, and any number of consecutive `NOP` edges leaves the filter registers unchanged.
The spec's decisions D3 and D13. That a `NOP` runs with undefined bits on `x_in` is the model's reading, DEDUCED (log
entry 7). -/
def Obligations.NopHoldsTheFilter : Prop :=
  (∀ (w : Nat) (x u : BitVec w), decode { rst := .low, inValid := .low, xIn := x, xUndef := u } = .ok .nop) ∧
  (∀ s : State, s.resetSeen = true → exec .nop s = .next { s with outValidQ := false }) ∧
  (∀ (s : State) (ps rest : List (Pins s.cfg.inW)), s.refused = none → s.resetSeen = true →
    s.edges = ps ++ rest →
    ps.all Pins.isNop = true → ps ≠ [] →
    Host.Core.run Sys2Proof.core ps.length s = .next { s with edges := rest, outValidQ := false })

/-- 40_operations.md R61, R62, R65, R66: `STEP x` updates the high-pass tracker, takes the high-passed signal from the
UPDATED tracker, runs it through low-pass 1 and low-pass 1's FRESH value through low-pass 2, all in exact integers, and
sets `out_valid_q`; nothing else is written, and the ports show the results after the edge.
The floor of `track` is the spec's decision D8, low-pass 1's fresh value its D10, the output registers its D13. -/
def Obligations.StepRunsTheThreeStages : Prop :=
  (∀ (w : Nat) (b : BitVec w),
    decode { rst := .low, inValid := .high, xIn := b, xUndef := 0#w } = .ok (.step b.toInt)) ∧
  (∀ (s : State) (x : Int), s.resetSeen = true → Instr.wellFormed s.cfg.inW (.step x) = true →
    ∃ (hp : BitVec s.cfg.inW) (hpOut lp1 lp2 : BitVec (s.cfg.inW + 1)),
      let t : State := { s with
        hpState := hp, hpOutQ := hpOut, lp1State := lp1, lp2State := lp2, outValidQ := true }
      exec (.step x) s = .next t ∧
      hp.toInt = track s.hpState.toInt x s.cfg.hpCoeff ∧
      hpOut.toInt = x - hp.toInt ∧
      lp1.toInt = track s.lp1State.toInt hpOut.toInt s.cfg.lpCoeff ∧
      lp2.toInt = track s.lp2State.toInt lp1.toInt s.cfg.lpCoeff ∧
      (s.refused = none → observedOutputs t = .ok
        { yHp := hpOut.toInt, yLp := lp2.toInt, yScaled := floorShr lp2.toInt s.cfg.scaleShift, outValid := true }))

/-- 70_reset_and_hazards.md R90: `RESET` clears all five registers from ANY state, also before
the first `RESET`, with either level of `in_valid` and anything on `x_in`; a second one changes nothing.
The zeros are the spec's decision D11, the reset style its D12. That a `RESET` runs with undefined bits on `x_in` is the
model's reading, DEDUCED (log entry 7). -/
def Obligations.ResetClearsEveryRegister : Prop :=
  (∀ (w : Nat) (v : Bool) (x u : BitVec w),
    decode { rst := .high, inValid := Level.ofBit v, xIn := x, xUndef := u } = .ok (.reset v)) ∧
  (∀ (s : State) (v v' : Bool),
    let t : State := { s with
      hpState := 0#_, lp1State := 0#_, lp2State := 0#_, hpOutQ := 0#_, outValidQ := false, resetSeen := true }
    exec (.reset v) s = .next t ∧ exec (.reset v') t = .next t)

/-- 70_reset_and_hazards.md R90: holding `rst = 1` for several edges is the same as one `RESET`.
The spec's decision D12. -/
def Obligations.HeldResetEqualsOneReset : Prop :=
  ∀ (s : State) (ps rest : List (Pins s.cfg.inW)), s.refused = none → s.edges = ps ++ rest →
    ps.all Pins.isReset = true → ps ≠ [] →
    Host.Core.run Sys2Proof.core ps.length s = exec (.reset false) { s with edges := rest }

/-- 10_state.md R30: every register is 0 after a `RESET` edge, and so in the state right after reset.
The zeros are the spec's decision D11. -/
def Obligations.RegistersAreZeroAfterReset : Prop :=
  (∀ (s : State) (v : Bool), ∃ t, exec (.reset v) s = .next t ∧
    t.hpState = 0#_ ∧ t.lp1State = 0#_ ∧ t.lp2State = 0#_ ∧ t.hpOutQ = 0#_ ∧ t.outValidQ = false) ∧
  (State.reset.hpState = 0#_ ∧ State.reset.lp1State = 0#_ ∧ State.reset.lp2State = 0#_ ∧
    State.reset.hpOutQ = 0#_ ∧ State.reset.outValidQ = false)

/-- 60_exceptions.md R83: an edge with an undefined level, a `STEP` or `NOP` before the first `RESET`, and a read of an
output port before the first `RESET`, are refused, and each marks the state, changing nothing else; and in a marked
state every edge (a `RESET` too) and every read is refused for the rest of the run.
The refusals are the spec's decisions D11 and D20. The model's own are: that a marked state answers the refusal that
marked it, and how the mark is carried (log entry 10, DEDUCED); and that an undefined level names the reason also before
the first `RESET` (log entry 20, DESIGN CHOICE). -/
def Obligations.RefusalsOutsideTheContract : Prop :=
  (∀ (s : State) (p : Pins s.cfg.inW) (rest : List (Pins s.cfg.inW)), s.refused = none → s.edges = p :: rest →
    p.inContract = false →
    ∃ r, (∀ k, Host.Core.run Sys2Proof.core (k + 1) s = .refused (.undefinedLevel r)) ∧
      hostAct s .edge = (.error (.undefinedLevel r), { s with refused := some (.undefinedLevel r) })) ∧
  (∀ (s : State) (p : Pins s.cfg.inW) (rest : List (Pins s.cfg.inW)), s.refused = none → s.edges = p :: rest →
    p.inContract = true → p.isReset = false → s.resetSeen = false →
    (∀ k, Host.Core.run Sys2Proof.core (k + 1) s = .refused .beforeFirstReset) ∧
      hostAct s .edge = (.error .beforeFirstReset, { s with refused := some .beforeFirstReset })) ∧
  (∀ s : State, s.refused = none → s.resetSeen = false →
    readOutputs s = .error .readBeforeFirstReset ∧ observedOutputs s = .error .readBeforeFirstReset ∧
      hostAct s .read = (.error .readBeforeFirstReset, { s with refused := some .readBeforeFirstReset })) ∧
  (∀ (s : State) (r : Refusal), s.refused = some r →
    (∀ acts : List HostAct, hostActs s acts = (acts.map (fun _ => .error r), s)) ∧
      ∀ k, Host.Core.run Sys2Proof.core (k + 1) s = .refused r)

/-- Reading the outputs between edges has no side effect (20_memory.md R43, 70_reset_and_hazards.md R98): once the
registers are written, a read shows the outputs and leaves the state as it was, and whatever the host does in a run, the
reads taken out of it lead to the same state. Before the first `RESET` a read marks the state, which
`RefusalsOutsideTheContract` says. -/
def Obligations.ReadsChangeNothing : Prop :=
  (∀ s : State, s.refused = none → s.resetSeen = true →
    ∃ o, observedOutputs s = .ok o ∧ hostAct s .read = (.ok (some o), s)) ∧
  (∀ (s : State) (acts : List HostAct), s.resetSeen = true →
    (hostActs s acts).2 = (hostActs s (acts.filter (· == .edge))).2)

/-- 60_exceptions.md R80: the block raises no exception, and no operation with defined inputs can fail: once the
registers are written, every edge within the contract has a next state, and a `RESET` has one always, unless the run was
refused before (R83). The contract lets a `NOP` or `RESET` have undefined bits on `x_in`: the model's reading, DEDUCED
(log entry 7). -/
def Obligations.DefinedEdgesNeverFail : Prop :=
  (∀ (s : State) (f : Fault), step s ≠ .fault f) ∧
  (∀ (s : State) (p : Pins s.cfg.inW) (rest : List (Pins s.cfg.inW)), s.refused = none → s.edges = p :: rest →
    p.inContract = true →
    (s.resetSeen = true ∨ p.isReset = true) → ∃ t, step s = .next t)

/-! ## Arithmetic -/

/-- 40_operations.md R63: `track(s, u, C) = s + floor(((u - s) * C) / 256)`, the floor taken of the exact rational.
The floor reading of the source's `>>` is the spec's decision D8. -/
def Obligations.TrackRoundsTowardMinusInfinity : Prop :=
  ∀ (s u : Int) (C : Nat), 1 ≤ C → C ≤ 256 →
    track s u C = s + floorShr ((u - s) * C) 8 ∧
    track s u C = s + Int.floor ((((u - s) * C : Int) : Rat) / 256)

/-- 40_operations.md R64: the laws of `track` for every legal coefficient, and their consequences for the block.
The spec marks R64 as its own inference from R63. -/
def Obligations.TrackLaws : Prop :=
  (∀ (s u : Int) (C : Nat), 1 ≤ C → C ≤ 256 →
    (u = s → track s u C = s) ∧
    (C = 256 → track s u C = u) ∧
    (s < u → s ≤ track s u C ∧ track s u C ≤ u) ∧
    (u < s → u ≤ track s u C ∧ track s u C ≤ s - 1) ∧
    (track s u C = s ↔ 0 ≤ u - s ∧ u - s ≤ ((255 / C : Nat) : Int))) ∧
  (∀ (s : State) (x : Int), s.resetSeen = true → Instr.wellFormed s.cfg.inW (.step x) = true →
    ∃ (hp : BitVec s.cfg.inW) (hpOut lp1 lp2 : BitVec (s.cfg.inW + 1)),
      exec (.step x) s = .next { s with
        hpState := hp, hpOutQ := hpOut, lp1State := lp1, lp2State := lp2, outValidQ := true } ∧
      (s.cfg.hpCoeff = 256 → hp.toInt = x ∧ hpOut = 0#_ ∧
        lp1.toInt = track s.lp1State.toInt 0 s.cfg.lpCoeff) ∧
      (s.cfg.lpCoeff = 256 → lp1 = hpOut ∧ lp2 = hpOut))

/-- 40_operations.md R70: the five facts of the no-overflow argument. `x` is any operand, `hp`, `lp1` and `lp2` any
values in the ranges that 10_state.md R32 gives the registers.
The spec marks R70 as its own inference from R63, R64 and R30. -/
def Obligations.NoOverflowFacts : Prop :=
  (∀ (s u a b : Int) (C : Nat), 1 ≤ C → C ≤ 256 → a ≤ s → s ≤ b → a ≤ u → u ≤ b →
    min s u ≤ track s u C ∧ track s u C ≤ max s u ∧ a ≤ track s u C ∧ track s u C ≤ b) ∧
  (∀ (c : Config) (hp lp1 lp2 x : Int), fitsSigned c.inW hp → fitsSigned c.inW x →
    inSignalRange c.inW lp1 → inSignalRange c.inW lp2 →
    let v := stepValues c hp lp1 lp2 x
    fitsSigned c.inW v.hpNew ∧
    (hp ≤ x → hp ≤ v.hpNew ∧ v.hpNew ≤ x ∧ 0 ≤ v.hpOut ∧ v.hpOut ≤ x - hp) ∧
    (x < hp → x ≤ v.hpNew ∧ v.hpNew ≤ hp - 1 ∧ x - hp + 1 ≤ v.hpOut) ∧
    inSignalRange c.inW v.hpOut ∧ inSignalRange c.inW v.lp1New ∧ inSignalRange c.inW v.lp2New ∧
    fitsSigned c.outW v.hpOut ∧ fitsSigned c.outW v.lp1New ∧ fitsSigned c.outW v.lp2New ∧
    (∀ d ∈ [x - hp, v.hpOut - lp1, v.lp1New - lp2],
      d.natAbs < 2 ^ (c.inW + 1) ∧ fitsSigned c.diffW d ∧
      ∀ C ∈ [c.hpCoeff, c.lpCoeff], (d * (C : Int)).natAbs < 2 ^ (c.inW + 9) ∧ fitsSigned c.prodW (d * (C : Int)))) ∧
  (∀ c : Config, fitsSigned c.inW 0 ∧ inSignalRange c.inW 0)

/-- 00_scope.md R6: `DIFF_W` and `PROD_W`, or any wider intermediates, are enough for every stage to be exact.
The widths are the spec's decision D9 and its inference from R63, R64 and R70. -/
def Obligations.DatapathWidthsSuffice : Prop :=
  ∀ (c : Config) (s u : Int) (C dW pW : Nat), fitsSigned c.outW s → fitsSigned c.outW u → 1 ≤ C → C ≤ 256 →
    c.diffW ≤ dW → c.prodW ≤ pW → trackAtWidths dW pW s u C = track s u C

/-- 40_operations.md R73: two instances that differ in `IN_W` only (and so in every register's width), with registers
of equal value and given the same sample, compute the same values and show the same outputs.
R73 speaks of the datapath's width and of the rate; this is its reading for instances of different `IN_W`. -/
def Obligations.ResultsDoNotDependOnWidth : Prop :=
  ∀ (s t : State) (x : Int), s.resetSeen = true → t.resetSeen = true →
    s.refused = t.refused → s.cfg.hpCoeff = t.cfg.hpCoeff → s.cfg.lpCoeff = t.cfg.lpCoeff →
    s.cfg.scaleShift = t.cfg.scaleShift →
    s.hpState.toInt = t.hpState.toInt → s.lp1State.toInt = t.lp1State.toInt →
    s.lp2State.toInt = t.lp2State.toInt →
    Instr.wellFormed s.cfg.inW (.step x) = true → Instr.wellFormed t.cfg.inW (.step x) = true →
    ∃ s' t', exec (.step x) s = .next s' ∧ exec (.step x) t = .next t' ∧
      s'.hpState.toInt = t'.hpState.toInt ∧ s'.lp1State.toInt = t'.lp1State.toInt ∧
      s'.lp2State.toInt = t'.lp2State.toInt ∧ s'.hpOutQ.toInt = t'.hpOutQ.toInt ∧
      observedOutputs s' = observedOutputs t'

/-- 40_operations.md R69: `x = hp_state` leaves the tracker and gives no high-passed signal; inputs of equal magnitude
and opposite sign do not give mirror-image results.
The spec marks R69 as its own inference from R61 to R67. -/
def Obligations.StepCornerCases : Prop :=
  (∀ s : State, s.resetSeen = true → ∃ lp1 lp2 : BitVec (s.cfg.inW + 1),
    exec (.step s.hpState.toInt) s = .next { s with
      hpOutQ := 0#_, lp1State := lp1, lp2State := lp2, outValidQ := true }) ∧
  (∀ (s : State) (x : Int), s.resetSeen = true → s.hpState = 0#_ → 0 < x → x * s.cfg.hpCoeff ≤ 255 →
    Instr.wellFormed s.cfg.inW (.step x) = true →
    ∃ t u, exec (.step x) s = .next t ∧ exec (.step (-x)) s = .next u ∧
      t.hpState.toInt = 0 ∧ t.hpOutQ.toInt = x ∧ u.hpState.toInt = -1 ∧ u.hpOutQ.toInt = 1 - x)

/-! ## Outputs -/

/-- 30_encoding.md R53: what the four output ports drive; no value is cut off at its port.
The ports are the spec's decision D2. -/
def Obligations.OutputPortsShowTheRegisters : Prop :=
  ∀ s : State, s.refused = none → s.resetSeen = true → ∃ o, readOutputs s = .ok o ∧
    o.yHp = s.hpOutQ ∧ o.yLp = s.lp2State ∧ o.outValid = s.outValidQ ∧
    o.yScaled.toInt = floorShr s.lp2State.toInt s.cfg.scaleShift

/-- 40_operations.md R67: `y_scaled` is the floor of `lp2_state / 2^SCALE_SHIFT`, with its two extreme shifts, and
never larger in magnitude than `lp2_state`.
That this block scales is the spec's decision D14, the range of the shift its D15. -/
def Obligations.ScalingRoundsTowardMinusInfinity : Prop :=
  ∀ s : State, s.refused = none → s.resetSeen = true → ∃ o, readOutputs s = .ok o ∧
    o.yScaled.toInt = Int.floor ((s.lp2State.toInt : Rat) / 2 ^ s.cfg.scaleShift) ∧
    (s.cfg.scaleShift = 0 → o.yScaled = o.yLp) ∧
    (s.cfg.scaleShift = s.cfg.inW → o.yScaled.toInt = -1 ∨ o.yScaled.toInt = 0) ∧
    o.yScaled.toInt.natAbs ≤ s.lp2State.toInt.natAbs

/-- 70_reset_and_hazards.md R95: the results of a `STEP` show after its edge, `NOP` edges keep them and only
`out_valid` falls; and a `STEP` is accepted on every edge, the second of two reading what the first wrote.
The spec's decision D13. That the `NOP` edges may have undefined bits on `x_in` is the model's reading, DEDUCED (log
entry 7). -/
def Obligations.LatencyIsOneEdge : Prop :=
  (∀ (s : State) (p : Pins s.cfg.inW) (nops rest : List (Pins s.cfg.inW)) (x : Int), s.refused = none →
    s.resetSeen = true → s.edges = p :: nops ++ rest → decode p = .ok (.step x) → nops.all Pins.isNop = true →
    let v := stepValues s.cfg s.hpState.toInt s.lp1State.toInt s.lp2State.toInt x
    let o : Observation :=
      { yHp := v.hpOut, yLp := v.lp2New, yScaled := floorShr v.lp2New s.cfg.scaleShift, outValid := true }
    observe (nops.length + 1) s = o :: List.replicate nops.length { o with outValid := false }) ∧
  (∀ (s : State) (p q : Pins s.cfg.inW) (rest : List (Pins s.cfg.inW)) (x y : Int), s.refused = none →
    s.resetSeen = true → s.edges = p :: q :: rest → decode p = .ok (.step x) → decode q = .ok (.step y) →
    let v := stepValues s.cfg s.hpState.toInt s.lp1State.toInt s.lp2State.toInt x
    let v' := stepValues s.cfg v.hpNew v.lp1New v.lp2New y
    observe 2 s =
      [{ yHp := v.hpOut, yLp := v.lp2New, yScaled := floorShr v.lp2New s.cfg.scaleShift, outValid := true },
       { yHp := v'.hpOut, yLp := v'.lp2New, yScaled := floorShr v'.lp2New s.cfg.scaleShift, outValid := true }])

/-- 10_state.md R26: `out_valid_q` is set by a `STEP` edge and cleared by a `NOP` or `RESET` edge, shows on port
`out_valid`, and no operation reads it.
The flag is the spec's decision D13. -/
def Obligations.OutValidMarksAStep : Prop :=
  (∀ (s t : State), step s = .next t →
    (t.outValidQ = true ↔ ∃ p rest x, s.edges = p :: rest ∧ decode p = .ok (.step x)) ∧
    (∃ o, readOutputs t = .ok o ∧ o.outValid = t.outValidQ)) ∧
  (∀ (i : Instr) (s : State) (b : Bool), exec i { s with outValidQ := b } = exec i s)

/-- 10_state.md R25: `hp_out_q` holds the high-passed signal of the latest `STEP`, for port `y_hp`, and feeds nothing:
the next `STEP` (and any `RESET`) gives the same state whatever stands in it.
The register is the spec's decision D13. -/
def Obligations.HpOutFeedsNothing : Prop :=
  (∀ (s : State) (x : Int), s.resetSeen = true → Instr.wellFormed s.cfg.inW (.step x) = true →
    ∃ t o, exec (.step x) s = .next t ∧ t.hpOutQ.toInt = x - t.hpState.toInt ∧
      (s.refused = none → observedOutputs t = .ok o ∧ o.yHp = t.hpOutQ.toInt)) ∧
  (∀ (s : State) (x : Int) (v : Bool) (q : BitVec (s.cfg.inW + 1)),
    exec (.step x) { s with hpOutQ := q } = exec (.step x) s ∧
    exec (.reset v) { s with hpOutQ := q } = exec (.reset v) s)

/-- 10_state.md R29: `hp_state` and `lp1_state` show on no port, whatever they hold; yet a model must keep them, because
they decide later outputs: for each of the two there are states that differ in it alone, show the same outputs, and
show different outputs after the same `STEP`.
The spec's decision D11. -/
def Obligations.HiddenRegistersShowOnlyLater : Prop :=
  (∀ (s : State) (hp : BitVec s.cfg.inW) (lp1 : BitVec (s.cfg.inW + 1)),
    observedOutputs { s with hpState := hp, lp1State := lp1 } = observedOutputs s) ∧
  (∃ (s : State) (hp : BitVec s.cfg.inW) (x : Int) (t u : State),
    exec (.step x) s = .next t ∧ exec (.step x) { s with hpState := hp } = .next u ∧
    observedOutputs t ≠ observedOutputs u) ∧
  (∃ (s : State) (lp1 : BitVec (s.cfg.inW + 1)) (x : Int) (t u : State),
    exec (.step x) s = .next t ∧ exec (.step x) { s with lp1State := lp1 } = .next u ∧
    observedOutputs t ≠ observedOutputs u)

/-- 70_reset_and_hazards.md R94: a reader exactly at an edge may see the old or the new value of a port; at a `NOP`
edge the two agree on every port but `out_valid`.
The spec's decision D13; how the admitted values are written down is log entry 9. -/
def Obligations.SamplingAtAnEdge : Prop :=
  (∀ before after : Observation, before.admittedAtEdge before after = true ∧ after.admittedAtEdge before after = true) ∧
  (∀ (s : State) (p : Pins s.cfg.inW) (rest : List (Pins s.cfg.inW)), s.refused = none → s.resetSeen = true →
    s.edges = p :: rest →
    p.isNop = true →
    ∃ t before after, step s = .next t ∧ observedOutputs s = .ok before ∧ observedOutputs t = .ok after ∧
      ∀ seen : Observation, seen.admittedAtEdge before after = true →
        seen.yHp = before.yHp ∧ seen.yLp = before.yLp ∧ seen.yScaled = before.yScaled)

/-! ## Invariants, runs and instances -/

/-- 00_scope.md R7: the parameters do not change while the block runs.
The spec's decision D4; that they stand in State is log entry 1. -/
def Obligations.ParametersNeverChange : Prop :=
  ∀ s t : State, step s = .next t → t.cfg = s.cfg

/-- The ranges of 10_state.md R32 are kept by every step, of every instance; after any step the registers are written.
The spec marks R32 as its own inference from R70 and R30. -/
def Obligations.EveryStepKeepsTheRanges : Prop :=
  ∀ s t : State, (s.resetSeen = true → s.InRange) → step s = .next t → t.resetSeen = true ∧ t.InRange

/-- The state right after reset is in the ranges of 10_state.md R32.
The instance of that state is the model's choice, log entry 2. -/
def Obligations.ResetStateIsInRange : Prop :=
  State.reset.resetSeen = true ∧ State.reset.InRange

/-- 10_state.md R32: from any state not marked refused, a `RESET` followed by any sequence of edges within the contract runs
without a stop, and every state it passes through is in the ranges.
The spec marks R32 as its own inference from R70 and R30. -/
def Obligations.LegalRunsStayInRange : Prop :=
  ∀ (s : State) (p : Pins s.cfg.inW) (ps : List (Pins s.cfg.inW)), s.refused = none →
    s.edges = p :: ps → p.isReset = true →
    ps.all Pins.inContract = true →
    ∀ k, k ≤ ps.length → ∃ t, Host.Core.run Sys2Proof.core (k + 1) s = .next t ∧ t.InRange ∧
      t.edges.length = ps.length - k

/-- 70_reset_and_hazards.md R99: the run ends after its last operation (the model's refusal `runEnded`, log entry 4),
and its observation has one entry for each edge, the outputs after that edge. -/
def Obligations.ObservationFollowsTheRun : Prop :=
  (∀ s : State, s.refused = none → s.edges = [] → step s = .refused .runEnded) ∧
  (∀ (s : State) (p : Pins s.cfg.inW) (ps : List (Pins s.cfg.inW)), s.refused = none → s.edges = p :: ps →
    p.isReset = true → ps.all Pins.inContract = true →
    (observe (ps.length + 1) s).length = ps.length + 1 ∧
    ∀ k, k ≤ ps.length → ∃ t o, Host.Core.run Sys2Proof.core (k + 1) s = .next t ∧ observedOutputs t = .ok o ∧
      (observe (ps.length + 1) s)[k]? = some o)

/-- 70_reset_and_hazards.md R92: no first-run behaviour. The first `STEP` after a `RESET` computes from zero state, from
whatever state the `RESET` was taken, power-up included (a run already refused takes none).
The spec's decision D11. That the `RESET` edge may have undefined bits on `x_in` is the model's reading, DEDUCED (log
entry 7). -/
def Obligations.FirstStepAfterResetStartsFromZero : Prop :=
  ∀ (s : State) (p q : Pins s.cfg.inW) (rest : List (Pins s.cfg.inW)) (x : Int), s.refused = none →
    s.edges = p :: q :: rest →
    p.isReset = true → decode q = .ok (.step x) →
    ∃ (hp : BitVec s.cfg.inW) (hpOut lp1 lp2 : BitVec (s.cfg.inW + 1)),
      Host.Core.run Sys2Proof.core 2 s = .next { s with
        hpState := hp, hpOutQ := hpOut, lp1State := lp1, lp2State := lp2, outValidQ := true, resetSeen := true,
        edges := rest } ∧
      { hpNew := hp.toInt, hpOut := hpOut.toInt, lp1New := lp1.toInt, lp2New := lp2.toInt } =
        stepValues s.cfg 0 0 0 x

/-- After a `RESET` nothing of the state before it shows: two runs whose first edge is the same `RESET` have the same
observation whatever stood in the registers, and whether or not they were written (10_state.md R31,
70_reset_and_hazards.md R90).
The spec's decision D11. -/
def Obligations.ResetErasesThePast : Prop :=
  ∀ (s : State) (p : Pins s.cfg.inW) (rest : List (Pins s.cfg.inW)) (hp : BitVec s.cfg.inW)
    (lp1 lp2 hpOut : BitVec (s.cfg.inW + 1)) (valid seen : Bool) (n : Nat), s.edges = p :: rest → p.isReset = true →
    observe n { s with
      hpState := hp, lp1State := lp1, lp2State := lp2, hpOutQ := hpOut, outValidQ := valid, resetSeen := seen } =
    observe n s

/-- 70_reset_and_hazards.md R96, R98: `NOP` edges between the operations affect no result. A run gives the same filter
registers as the run with its `NOP` edges taken out.
The spec's decisions D13 and D19. -/
def Obligations.NopEdgesAffectNoResult : Prop :=
  ∀ s : State, s.refused = none → s.resetSeen = true → s.edges.all Pins.inContract = true →
    ∃ t u, Host.Core.run Sys2Proof.core s.edges.length s = .next t ∧
      Host.Core.run Sys2Proof.core (s.edges.filter (fun p => !p.isNop)).length
        { s with edges := s.edges.filter (fun p => !p.isNop) } = .next u ∧
      t.hpState.toInt = u.hpState.toInt ∧ t.lp1State.toInt = u.lp1State.toInt ∧
      t.lp2State.toInt = u.lp2State.toInt ∧ t.hpOutQ.toInt = u.hpOutQ.toInt

/-- 70_reset_and_hazards.md R97 with 10_state.md R26: a host that meets `HOST_ONE_STEP_PER_TICK` sees exactly one valid
output per tick, however many other edges each tick has. The premise is the host's duty, not a property of the block.
The duty is the spec's decision D19. -/
def Obligations.OneValidOutputPerTick : Prop :=
  ∀ (s : State) (ticks : List (List (Pins s.cfg.inW))), s.refused = none → s.resetSeen = true →
    s.edges = ticks.flatten →
    s.edges.all Pins.inContract = true → hostOneStepPerTick ticks = true →
    ((observe s.edges.length s).filter Observation.outValid).length = ticks.length

/-- 40_operations.md R71: a stage under a constant input settles, exactly at its input from above and within
`floor(255 / C)` below it from below; and for a constant centered sample held from reset the high-passed signal settles
to a value in `[0, floor(255 / HP_COEFF)]`, to 0 when the sample is not positive, within `|x|` further `STEP`s.
The spec marks R71 as its own inference from R64. -/
def Obligations.ConstantInputSettles : Prop :=
  (∀ (s u : Int) (C : Nat), 1 ≤ C → C ≤ 256 →
    (u < s → track s u C ≤ s - 1 ∧ ∀ n, (s - u).toNat ≤ n → (fun r => track r u C)^[n] s = u) ∧
    (s < u → ∃ v, u - ((255 / C : Nat) : Int) ≤ v ∧ v ≤ u ∧
      (∀ n, (fun r => track r u C)^[n] s ≤ (fun r => track r u C)^[n + 1] s) ∧
      ∀ n, (u - s).toNat ≤ n → (fun r => track r u C)^[n] s = v)) ∧
  (∀ (c : Config) (x : Int), Instr.wellFormed c.inW (.step x) = true →
    ∃ v : Int, 0 ≤ v ∧ v ≤ ((255 / c.hpCoeff : Nat) : Int) ∧ (x ≤ 0 → v = 0) ∧
      ∀ (s : State) (n : Nat), s.cfg = c → s.refused = none → s.resetSeen = true → s.hpState = 0#_ →
        x.natAbs ≤ n → s.edges = List.replicate (n + 1) (encode s.cfg.inW (.step x)) →
        ∃ t, Host.Core.run Sys2Proof.core (n + 1) s = .next t ∧ t.hpOutQ.toInt = v)

/-- The whole cascade settles under a constant sample, from every written state: after finitely many `STEP`s the
registers stand still, each stage within its one-sided band below its input (40_operations.md R71).
The spec marks R71 as its own inference from R64. -/
def Obligations.WholeCascadeSettles : Prop :=
  ∀ (s : State) (x : Int), s.refused = none → s.resetSeen = true → Instr.wellFormed s.cfg.inW (.step x) = true →
    ∃ (N : Nat) (hp lp1 lp2 : Int),
      (0 ≤ x - hp ∧ x - hp ≤ ((255 / s.cfg.hpCoeff : Nat) : Int)) ∧
      (0 ≤ x - hp - lp1 ∧ x - hp - lp1 ≤ ((255 / s.cfg.lpCoeff : Nat) : Int)) ∧
      (0 ≤ lp1 - lp2 ∧ lp1 - lp2 ≤ ((255 / s.cfg.lpCoeff : Nat) : Int)) ∧
      ∀ n, N ≤ n → ∃ t,
        Host.Core.run Sys2Proof.core n { s with edges := List.replicate n (encode s.cfg.inW (.step x)) } = .next t ∧
        t.hpState.toInt = hp ∧ t.lp1State.toInt = lp1 ∧ t.lp2State.toInt = lp2

/-- 10_state.md R33: several instances on one clock step independently: what each does at the edge is its own step, from
its own state alone.
The spec's decision D22; the list of instances is log entry 15. -/
def Obligations.InstancesAreIndependent : Prop :=
  ∀ (ms : List State) (k : Nat), (stepInstances ms)[k]? = (ms[k]?).map step

/-- 60_exceptions.md R82: an instance is refused at elaboration exactly when one of the four conditions holds;
otherwise it is built with the parameters given.
The bounds but for `LP_COEFF`'s are the spec's decisions D5, D6 and D15. -/
def Obligations.ElaborationRefusesIllegalParameters : Prop :=
  (∀ p : Params, (∃ r, elaborate p = .error r) ↔
    p.inW < 2 ∨ ¬ (1 ≤ p.hpCoeff ∧ p.hpCoeff ≤ 256) ∨ ¬ (1 ≤ p.lpCoeff ∧ p.lpCoeff ≤ 256) ∨
      ¬ (0 ≤ p.scaleShift ∧ p.scaleShift ≤ p.inW)) ∧
  (∀ (p : Params) (c : Config), elaborate p = .ok c → c.params = p) ∧
  (∀ c : Config, elaborate c.params = .ok c)

/-- 93_implementation_defined.md U6: under `SW32_NO_OVERFLOW` one `STEP` of the block and one sample of the 32-bit
software compute the same values; and without it the software computes none.
The model's reading of that software is log entry 17. -/
def Obligations.AgreesWithSoftwareWithoutOverflow : Prop :=
  ∀ (s : State) (x : Int), s.resetSeen = true → Instr.wellFormed s.cfg.inW (.step x) = true →
    (Software32NoOverflow s.cfg s.hpState.toInt s.lp1State.toInt s.lp2State.toInt x →
      ∃ v t, software32Step s.cfg s.hpState.toInt s.lp1State.toInt s.lp2State.toInt x = some v ∧
        exec (.step x) s = .next t ∧ t.hpState.toInt = v.hpNew ∧ t.hpOutQ.toInt = v.hpOut ∧
        t.lp1State.toInt = v.lp1New ∧ t.lp2State.toInt = v.lp2New) ∧
    (¬ Software32NoOverflow s.cfg s.hpState.toInt s.lp1State.toInt s.lp2State.toInt x →
      software32Step s.cfg s.hpState.toInt s.lp1State.toInt s.lp2State.toInt x = none)
end

