-- ==== Sys2Proof/Laws/Decode.lean ====
section
/-! SUPPORT. The small lemmas of levels and of the decoder. -/

namespace Sys2Proof

@[simp] theorem Level.bit?_ofBit (b : Bool) : (Level.ofBit b).bit? = some b := by cases b <;> rfl

/-- A level that carries a bit is that bit's level. -/
theorem Level.eq_ofBit {l : Level} {b : Bool} (h : l.bit? = some b) : l = Level.ofBit b := by
  cases l <;> cases b <;> simp_all [Level.bit?, Level.ofBit]

/-- Every way the decoder answers an operation. -/
theorem decode_ok_cases {w : Nat} {p : Pins w} {i : Instr} (h : decode p = .ok i) :
    (p.rst.bit? = some false ∧ p.inValid.bit? = some false ∧ i = .nop) ∨
    (p.rst.bit? = some false ∧ p.inValid.bit? = some true ∧ p.xUndef = 0#w ∧ i = .step p.xIn.toInt) ∨
    (∃ v, p.rst.bit? = some true ∧ p.inValid.bit? = some v ∧ i = .reset v) := by
  unfold decode at h
  split at h
  · cases h
  · cases h
  · cases h; exact .inl ⟨‹_›, ‹_›, rfl⟩
  · split at h
    · cases h; exact .inr (.inl ⟨‹_›, ‹_›, ‹_›, rfl⟩)
    · cases h
  · cases h; exact .inr (.inr ⟨_, ‹_›, ‹_›, rfl⟩)

end Sys2Proof
end

