-- ==== Sys2Proof/Laws/State.lean ====
section
/-! SUPPORT. One lemma per field per update of State, so that no proof unfolds a record update. -/

namespace Sys2Proof.Machine.State

@[simp] theorem withFilter_cfg (s : State) (v : StepValues) : (s.withFilter v).cfg = s.cfg := rfl
@[simp] theorem withFilter_hpState (s : State) (v : StepValues) : (s.withFilter v).hpState = narrow s.cfg.inW v.hpNew := rfl
@[simp] theorem withFilter_lp1State (s : State) (v : StepValues) : (s.withFilter v).lp1State = narrow (s.cfg.inW + 1) v.lp1New := rfl
@[simp] theorem withFilter_lp2State (s : State) (v : StepValues) : (s.withFilter v).lp2State = narrow (s.cfg.inW + 1) v.lp2New := rfl
@[simp] theorem withFilter_hpOutQ (s : State) (v : StepValues) : (s.withFilter v).hpOutQ = narrow (s.cfg.inW + 1) v.hpOut := rfl
@[simp] theorem withFilter_outValidQ (s : State) (v : StepValues) : (s.withFilter v).outValidQ = s.outValidQ := rfl
@[simp] theorem withFilter_resetSeen (s : State) (v : StepValues) : (s.withFilter v).resetSeen = s.resetSeen := rfl
@[simp] theorem withFilter_edges (s : State) (v : StepValues) : (s.withFilter v).edges = s.edges := rfl
@[simp] theorem withFilter_refused (s : State) (v : StepValues) : (s.withFilter v).refused = s.refused := rfl

@[simp] theorem withFilterCleared_cfg (s : State) : (s.withFilterCleared).cfg = s.cfg := rfl
@[simp] theorem withFilterCleared_hpState (s : State) : (s.withFilterCleared).hpState = 0#_ := rfl
@[simp] theorem withFilterCleared_lp1State (s : State) : (s.withFilterCleared).lp1State = 0#_ := rfl
@[simp] theorem withFilterCleared_lp2State (s : State) : (s.withFilterCleared).lp2State = 0#_ := rfl
@[simp] theorem withFilterCleared_hpOutQ (s : State) : (s.withFilterCleared).hpOutQ = 0#_ := rfl
@[simp] theorem withFilterCleared_outValidQ (s : State) : (s.withFilterCleared).outValidQ = s.outValidQ := rfl
@[simp] theorem withFilterCleared_resetSeen (s : State) : (s.withFilterCleared).resetSeen = s.resetSeen := rfl
@[simp] theorem withFilterCleared_edges (s : State) : (s.withFilterCleared).edges = s.edges := rfl
@[simp] theorem withFilterCleared_refused (s : State) : (s.withFilterCleared).refused = s.refused := rfl

@[simp] theorem withOutValid_cfg (s : State) (b : Bool) : (s.withOutValid b).cfg = s.cfg := rfl
@[simp] theorem withOutValid_hpState (s : State) (b : Bool) : (s.withOutValid b).hpState = s.hpState := rfl
@[simp] theorem withOutValid_lp1State (s : State) (b : Bool) : (s.withOutValid b).lp1State = s.lp1State := rfl
@[simp] theorem withOutValid_lp2State (s : State) (b : Bool) : (s.withOutValid b).lp2State = s.lp2State := rfl
@[simp] theorem withOutValid_hpOutQ (s : State) (b : Bool) : (s.withOutValid b).hpOutQ = s.hpOutQ := rfl
@[simp] theorem withOutValid_outValidQ (s : State) (b : Bool) : (s.withOutValid b).outValidQ = b := rfl
@[simp] theorem withOutValid_resetSeen (s : State) (b : Bool) : (s.withOutValid b).resetSeen = s.resetSeen := rfl
@[simp] theorem withOutValid_edges (s : State) (b : Bool) : (s.withOutValid b).edges = s.edges := rfl
@[simp] theorem withOutValid_refused (s : State) (b : Bool) : (s.withOutValid b).refused = s.refused := rfl

@[simp] theorem withResetSeen_cfg (s : State) : (s.withResetSeen).cfg = s.cfg := rfl
@[simp] theorem withResetSeen_hpState (s : State) : (s.withResetSeen).hpState = s.hpState := rfl
@[simp] theorem withResetSeen_lp1State (s : State) : (s.withResetSeen).lp1State = s.lp1State := rfl
@[simp] theorem withResetSeen_lp2State (s : State) : (s.withResetSeen).lp2State = s.lp2State := rfl
@[simp] theorem withResetSeen_hpOutQ (s : State) : (s.withResetSeen).hpOutQ = s.hpOutQ := rfl
@[simp] theorem withResetSeen_outValidQ (s : State) : (s.withResetSeen).outValidQ = s.outValidQ := rfl
@[simp] theorem withResetSeen_resetSeen (s : State) : (s.withResetSeen).resetSeen = true := rfl
@[simp] theorem withResetSeen_edges (s : State) : (s.withResetSeen).edges = s.edges := rfl
@[simp] theorem withResetSeen_refused (s : State) : (s.withResetSeen).refused = s.refused := rfl

@[simp] theorem withEdges_cfg (s : State) (es : List (Pins s.cfg.inW)) : (s.withEdges es).cfg = s.cfg := rfl
@[simp] theorem withEdges_hpState (s : State) (es : List (Pins s.cfg.inW)) : (s.withEdges es).hpState = s.hpState := rfl
@[simp] theorem withEdges_lp1State (s : State) (es : List (Pins s.cfg.inW)) : (s.withEdges es).lp1State = s.lp1State := rfl
@[simp] theorem withEdges_lp2State (s : State) (es : List (Pins s.cfg.inW)) : (s.withEdges es).lp2State = s.lp2State := rfl
@[simp] theorem withEdges_hpOutQ (s : State) (es : List (Pins s.cfg.inW)) : (s.withEdges es).hpOutQ = s.hpOutQ := rfl
@[simp] theorem withEdges_outValidQ (s : State) (es : List (Pins s.cfg.inW)) : (s.withEdges es).outValidQ = s.outValidQ := rfl
@[simp] theorem withEdges_resetSeen (s : State) (es : List (Pins s.cfg.inW)) : (s.withEdges es).resetSeen = s.resetSeen := rfl
@[simp] theorem withEdges_edges (s : State) (es : List (Pins s.cfg.inW)) : (s.withEdges es).edges = es := rfl
@[simp] theorem withEdges_refused (s : State) (es : List (Pins s.cfg.inW)) : (s.withEdges es).refused = s.refused := rfl

@[simp] theorem withRefused_cfg (s : State) (r : Refusal) : (s.withRefused r).cfg = s.cfg := rfl
@[simp] theorem withRefused_hpState (s : State) (r : Refusal) : (s.withRefused r).hpState = s.hpState := rfl
@[simp] theorem withRefused_lp1State (s : State) (r : Refusal) : (s.withRefused r).lp1State = s.lp1State := rfl
@[simp] theorem withRefused_lp2State (s : State) (r : Refusal) : (s.withRefused r).lp2State = s.lp2State := rfl
@[simp] theorem withRefused_hpOutQ (s : State) (r : Refusal) : (s.withRefused r).hpOutQ = s.hpOutQ := rfl
@[simp] theorem withRefused_outValidQ (s : State) (r : Refusal) : (s.withRefused r).outValidQ = s.outValidQ := rfl
@[simp] theorem withRefused_resetSeen (s : State) (r : Refusal) : (s.withRefused r).resetSeen = s.resetSeen := rfl
@[simp] theorem withRefused_edges (s : State) (r : Refusal) : (s.withRefused r).edges = s.edges := rfl
@[simp] theorem withRefused_refused (s : State) (r : Refusal) : (s.withRefused r).refused = some r := rfl

/-- Marking a state with the mark it has changes nothing. -/
theorem withRefused_self {s : State} {r : Refusal} (h : s.refused = some r) : s.withRefused r = s := by
  cases s; cases h; rfl

end Sys2Proof.Machine.State
end

