-- ==== Sys2Proof/Laws/Ops.lean ====
section
/-! SUPPORT. What each shared operation can do, said once; provers cite these lemmas and do not unfold the operation. -/

namespace Sys2Proof.Machine

/-! ## Arithmetic -/

theorem floorShr_zero (v : Int) : floorShr v 0 = v := by simp [floorShr]

theorem floorShr_eight (v : Int) : floorShr v 8 = v / 256 := by simp [floorShr]

/-- The bounds that say what `floorShr` is: the largest integer whose multiple by `2^n` does not exceed `v`. -/
theorem floorShr_bounds (v : Int) (n : Nat) :
    floorShr v n * ((2 ^ n : Nat) : Int) ≤ v ∧ v < (floorShr v n + 1) * ((2 ^ n : Nat) : Int) := by
  have hpos : (0 : Int) < ((2 ^ n : Nat) : Int) := by positivity
  exact ⟨Int.ediv_mul_le v hpos.ne', Int.lt_ediv_add_one_mul_self v hpos⟩

theorem track_eq (s u : Int) (coeff : Nat) : track s u coeff = s + (u - s) * coeff / 256 := by
  rw [track, floorShr_eight]

/-- A value that fits the width stands in the register unchanged: writing it cuts nothing off. -/
theorem toInt_narrow {w : Nat} {v : Int} (hw : 1 ≤ w) (h : fitsSigned w v) : (narrow w v).toInt = v := by
  obtain ⟨k, rfl⟩ : ∃ k, w = k + 1 := ⟨w - 1, by omega⟩
  simp only [fitsSigned, Nat.add_sub_cancel] at h
  rw [narrow, BitVec.toInt_ofInt]
  apply Int.bmod_eq_of_le <;> · rw [pow_succ]; push_cast at h ⊢; omega

/-- What stands in a register of `w` bits fits `w` bits. -/
theorem fitsSigned_toInt {w : Nat} (b : BitVec w) : fitsSigned w b.toInt := by
  have h1 := BitVec.le_toInt b
  have h2 := BitVec.toInt_lt (x := b)
  simp only [fitsSigned]
  push_cast
  omega

/-- Reading a register and writing the value back gives the register. -/
@[simp] theorem narrow_toInt {w : Nat} (b : BitVec w) : narrow w b.toInt = b := BitVec.ofInt_toInt

/-- The operand reaches the high-pass stage as it is (30_encoding.md R51). -/
theorem centeredSample_of_wellFormed {c : Config} {x : Int} (h : Instr.wellFormed c.inW (.step x) = true) :
    centeredSample c x = x := by
  have hw := c.inW_legal
  exact toInt_narrow (by omega) (of_decide_eq_true h)

/-- The cascade of 40_operations.md R61, one equation per intermediate. -/
theorem stepValues_hpNew (c : Config) (hp lp1 lp2 x : Int) :
    (stepValues c hp lp1 lp2 x).hpNew = track hp x c.hpCoeff := rfl
theorem stepValues_hpOut (c : Config) (hp lp1 lp2 x : Int) :
    (stepValues c hp lp1 lp2 x).hpOut = x - (stepValues c hp lp1 lp2 x).hpNew := rfl
theorem stepValues_lp1New (c : Config) (hp lp1 lp2 x : Int) :
    (stepValues c hp lp1 lp2 x).lp1New = track lp1 (stepValues c hp lp1 lp2 x).hpOut c.lpCoeff := rfl
theorem stepValues_lp2New (c : Config) (hp lp1 lp2 x : Int) :
    (stepValues c hp lp1 lp2 x).lp2New = track lp2 (stepValues c hp lp1 lp2 x).lp1New c.lpCoeff := rfl

/-! ## The guard, the ports, the edge -/

/-- The guard gives its next state exactly when the registers are written, and else its one refusal. -/
theorem whenWritten_eq_next {s next t : State} :
    whenWritten s next = .next t ↔ s.resetSeen = true ∧ next = t := by
  unfold whenWritten
  cases h : s.resetSeen <;> simp

theorem whenWritten_unwritten {s next : State} (h : s.resetSeen = false) :
    whenWritten s next = .refused .beforeFirstReset := by simp [whenWritten, h]

/-- A read of the outputs answers exactly when the registers are written and nothing was refused. -/
theorem readOutputs_eq_ok {s : State} {o : Outputs s.cfg.inW} :
    readOutputs s = .ok o ↔
      s.refused = none ∧ s.resetSeen = true ∧
      { yHp := s.hpOutQ, yLp := s.lp2State, yScaled := scaledOutput s, outValid := s.outValidQ } = o := by
  unfold readOutputs
  cases s.refused <;> cases s.resetSeen <;> simp

/-- In a state marked refused a read of the outputs answers the mark. -/
theorem observedOutputs_marked {s : State} {r : Refusal} (h : s.refused = some r) : observedOutputs s = .error r := by
  simp [observedOutputs, readOutputs, h]

/-- A read as an act: it changes nothing where it answers, and where it is refused it only marks the state. -/
theorem readPorts_eq (s : State) :
    (∃ o, observedOutputs s = .ok o ∧ readPorts s = (.ok o, s)) ∨
    (∃ r, observedOutputs s = .error r ∧ readPorts s = (.error r, s.withRefused r)) := by
  unfold readPorts
  cases observedOutputs s with
  | ok o => exact .inl ⟨o, rfl, rfl⟩
  | error r => exact .inr ⟨r, rfl, rfl⟩

/-- Taking an edge succeeds exactly when nothing was refused, there is one, and its ports select an operation; it takes
that edge off the list and changes nothing else. -/
theorem fetch_eq_ok {s s' : State} {i : Instr} :
    fetch s = .ok (i, s') ↔
      s.refused = none ∧ ∃ p rest, s.edges = p :: rest ∧ decode p = .ok i ∧ s' = s.withEdges rest := by
  unfold fetch
  cases hr : s.refused with
  | some r => simp
  | none =>
    cases he : s.edges with
    | nil => simp
    | cons p rest => cases hd : decode p <;> simp [hd, eq_comm]

/-- In a state marked refused no edge is taken: the mark is answered. -/
theorem fetch_marked {s : State} {r : Refusal} (h : s.refused = some r) : fetch s = .error r := by
  simp [fetch, h]

/-- The ports of a presented word stand first, and nothing but the list of edges changes. -/
theorem presentWord_edges (s : State) (word : Nat) :
    (presentWord s word).edges = Pins.ofWord s.cfg.inW word :: s.edges.tail := rfl

end Sys2Proof.Machine
end

