-- ==== Sys2Proof/Laws/PerInstr.lean ====
section
/-! SUPPORT. Statements made for each operation as syntax.

EncodesToItsRow: the control word of an operation's encoding hits that operation's row of opcode_table.json in the
decoder form of 30_encoding.md R52, and no other row. -/

namespace Sys2Proof.Laws.EncodesToItsRow

def Statement (i : Instr) : Prop :=
  ∀ w, ∃ ctl, (encode w i).ctl? = some ctl ∧
    (opRows.filter (fun row => row.hits ctl)).map OpRow.mnemonic = [i.mnemonic]

theorem nop : Statement .nop := fun _ => ⟨0b00#2, rfl, by decide⟩

theorem step (x : Int) : Statement (.step x) := fun _ => ⟨0b01#2, rfl, rfl⟩

theorem reset (inValid : Bool) : Statement (.reset inValid) := fun _ => by
  cases inValid
  · exact ⟨0b10#2, rfl, by decide⟩
  · exact ⟨0b11#2, rfl, by decide⟩

end Sys2Proof.Laws.EncodesToItsRow
end

