-- ==== Sys2Proof/Laws/Step.lean ====
section
/-! SUPPORT. What one operation, one step and one act of the host can do, said once: every invariant follows from these
cases. -/

namespace Sys2Proof.Machine

/-- Every next state an operation can give: `NOP` and `STEP` need the registers written, `RESET` does not. -/
theorem exec_next_cases {i : Instr} {s t : State} (h : exec i s = .next t) :
    (i = .nop ∧ s.resetSeen = true ∧ t = s.withOutValid false) ∨
    (∃ x, i = .step x ∧ s.resetSeen = true ∧
      t = (s.withFilter (stepValues s.cfg s.hpState.toInt s.lp1State.toInt s.lp2State.toInt
        (centeredSample s.cfg x))).withOutValid true) ∨
    (∃ v, i = .reset v ∧ t = (s.withFilterCleared.withOutValid false).withResetSeen) := by
  cases i with
  | nop =>
    obtain ⟨hs, rfl⟩ := whenWritten_eq_next.1 h
    exact .inl ⟨rfl, hs, rfl⟩
  | step x =>
    obtain ⟨hs, rfl⟩ := whenWritten_eq_next.1 h
    exact .inr (.inl ⟨x, rfl, hs, rfl⟩)
  | reset v =>
    cases h
    exact .inr (.inr ⟨v, rfl, rfl⟩)

/-- Every next state a step can give is that of the operation the next edge's ports select. -/
theorem step_next_cases {s t : State} (h : step s = .next t) :
    s.refused = none ∧
      ∃ p rest i, s.edges = p :: rest ∧ decode p = .ok i ∧ exec i (s.withEdges rest) = .next t := by
  unfold step at h
  cases hf : fetch s with
  | error r => simp [hf] at h
  | ok is =>
    obtain ⟨i, s'⟩ := is
    obtain ⟨hr, p, rest, he, hd, rfl⟩ := fetch_eq_ok.1 hf
    exact ⟨hr, p, rest, i, he, hd, by simpa [hf] using h⟩

/-- The frame of every step at once: a step that answers takes one edge off the list, leaves the registers written,
and changes nothing but the five registers; the instance stays what it was, and nothing is marked refused. -/
theorem step_next_shape {s t : State} (h : step s = .next t) :
    s.refused = none ∧ ∃ p rest hp lp1 lp2 hpOut valid, s.edges = p :: rest ∧
      t = { s with
        hpState := hp, lp1State := lp1, lp2State := lp2, hpOutQ := hpOut, outValidQ := valid, resetSeen := true,
        edges := rest } := by
  obtain ⟨hr, p, rest, i, he, -, hx⟩ := step_next_cases h
  refine ⟨hr, ?_⟩
  obtain ⟨cfg, hp, lp1, lp2, hpOut, valid, seen, es, mark⟩ := s
  rcases exec_next_cases hx with ⟨-, hs, rfl⟩ | ⟨x, -, hs, rfl⟩ | ⟨v, -, rfl⟩
  · cases hs; exact ⟨p, rest, hp, lp1, lp2, hpOut, false, he, rfl⟩
  · cases hs; exact ⟨p, rest, _, _, _, _, true, he, rfl⟩
  · exact ⟨p, rest, _, _, _, _, false, he, rfl⟩

/-- A state marked refused stays so: every step answers the mark. -/
theorem step_marked {s : State} {r : Refusal} (h : s.refused = some r) : step s = .refused r := by
  simp [step, fetch_marked h]

/-- A run of `k + 1` steps is one step and a run of `k`. -/
theorem run_succ_of_next {s t : State} (h : step s = .next t) (k : Nat) :
    Host.Core.run Sys2Proof.core (k + 1) s = Host.Core.run Sys2Proof.core k t := by
  have h' : Sys2Proof.core.step s = .next t := h
  simp [Host.Core.run, h']

/-- The induction over a run, once: what every step keeps holds after every run that answers. -/
theorem run_keeps {P : State → Prop} (keep : ∀ s t, P s → step s = .next t → P t) :
    ∀ (k : Nat) (s t : State), P s → Host.Core.run Sys2Proof.core k s = .next t → P t
  | 0, s, t, hs, h => by cases h; exact hs
  | k + 1, s, t, hs, h => by
    have hstep : Sys2Proof.core.step s = step s := rfl
    simp only [Host.Core.run, hstep] at h
    split at h
    · exact run_keeps keep k _ t (keep _ _ hs ‹_›) h
    · cases h
    · cases h

/-! ## The acts of the host -/

@[simp] theorem hostActs_nil (s : State) : hostActs s [] = ([], s) := rfl
@[simp] theorem hostActs_cons (s : State) (a : HostAct) (acts : List HostAct) :
    hostActs s (a :: acts) =
      ((hostAct s a).1 :: (hostActs (hostAct s a).2 acts).1, (hostActs (hostAct s a).2 acts).2) := rfl

theorem hostAct_edge_of_next {s t : State} (h : step s = .next t) : hostAct s .edge = (.ok none, t) := by
  simp [hostAct, h]

theorem hostAct_edge_of_refused {s : State} {r : Refusal} (h : step s = .refused r) :
    hostAct s .edge = (.error r, if r.marksTheRun then s.withRefused r else s) := by
  simp [hostAct, h]

/-- Everything one act of the host can do: an edge that answers is a step, a read that answers changes nothing, and
what is refused leaves the state as it was but for the mark. -/
theorem hostAct_cases (s : State) (a : HostAct) :
    (a = .edge ∧ ∃ t, step s = .next t ∧ hostAct s a = (.ok none, t)) ∨
    (a = .edge ∧ ∃ r, step s = .refused r ∧
      hostAct s a = (.error r, if r.marksTheRun then s.withRefused r else s)) ∨
    (a = .read ∧ ∃ o, observedOutputs s = .ok o ∧ hostAct s a = (.ok (some o), s)) ∨
    (a = .read ∧ ∃ r, observedOutputs s = .error r ∧ hostAct s a = (.error r, s.withRefused r)) := by
  cases a with
  | edge =>
    cases h : step s with
    | next t => exact .inl ⟨rfl, t, rfl, hostAct_edge_of_next h⟩
    | fault f => exact nomatch f
    | refused r => exact .inr (.inl ⟨rfl, r, rfl, hostAct_edge_of_refused h⟩)
  | read =>
    rcases readPorts_eq s with ⟨o, ho, h⟩ | ⟨r, hr, h⟩
    · exact .inr (.inr (.inl ⟨rfl, o, ho, by simp [hostAct, h]⟩))
    · exact .inr (.inr (.inr ⟨rfl, r, hr, by simp [hostAct, h]⟩))

/-- Every act in a state marked refused answers the mark and changes nothing. -/
theorem hostAct_marked {s : State} {r : Refusal} (h : s.refused = some r) (a : HostAct) :
    hostAct s a = (.error r, s) := by
  have hself : s.withRefused r = s := State.withRefused_self h
  cases a with
  | edge => rw [hostAct_edge_of_refused (step_marked h), hself, ite_self]
  | read => simp [hostAct, readPorts, observedOutputs_marked h, hself]

end Sys2Proof.Machine
end

