-- ==== Sys2Proof/Tests/Slice0.lean ====
section
/-! SUPPORT. Tests of the model, and for every obligation with hypotheses a concrete case that meets them all.

Expected results are those of 95_test_vectors.md (each test names its vector), of 30_encoding.md R52 and R57, or
worked out by hand from the rule named. -/

namespace Sys2Proof.Tests

open Sys2Proof.Machine

/-! ## Helpers -/

/-- The instance of vectors V1, V2, N1, RV2 and of programs P1, P2: `IN_W = 16`, 16, 128, 2. -/
def cfg16 : Config := ⟨16, 16, 128, 2, by decide, by decide, by decide, by decide⟩
/-- The instance of vectors E1 and E2: `IN_W = 8`, 1, 256, 0. -/
def cfg8 : Config := ⟨8, 1, 256, 0, by decide, by decide, by decide, by decide⟩
/-- An instance with both coefficients and the shift at their upper ends. -/
def cfgMax : Config := ⟨8, 256, 256, 8, by decide, by decide, by decide, by decide⟩
/-- An instance with `HP_COEFF = 255`. -/
def cfg255 : Config := ⟨8, 255, 1, 0, by decide, by decide, by decide, by decide⟩

/-- A state written `(hp_state, lp1_state, lp2_state, hp_out_q), out_valid` as in 95_test_vectors.md, with edges. -/
def mk (c : Config) (hp lp1 lp2 hpOut : Int) (valid : Bool) (es : List (Pins c.inW)) : State where
  cfg := c
  hpState := narrow c.inW hp
  lp1State := narrow (c.inW + 1) lp1
  lp2State := narrow (c.inW + 1) lp2
  hpOutQ := narrow (c.inW + 1) hpOut
  outValidQ := valid
  resetSeen := true
  edges := es
  refused := none

/-- The registers after an operation, as 95_test_vectors.md writes them, and `out_valid`. -/
def after : Host.Outcome State Fault Refusal → Option (Int × Int × Int × Int × Bool)
  | .next t => some (t.hpState.toInt, t.lp1State.toInt, t.lp2State.toInt, t.hpOutQ.toInt, t.outValidQ)
  | .fault _ => none
  | .refused _ => none

/-- `y_scaled` after an operation. -/
def scaledAfter : Host.Outcome State Fault Refusal → Option Int
  | .next t => some (scaledOutput t).toInt
  | .fault _ => none
  | .refused _ => none

def nopPins (w : Nat) : Pins w := { rst := .low, inValid := .low, xIn := 5#w, xUndef := 1#w }
def stepPins (w : Nat) (x : Int) : Pins w := encode w (.step x)
def resetPins (w : Nat) (v : Bool) : Pins w := encode w (.reset v)
/-- `STEP` with `x_in[3] = Z` (95_test_vectors.md 2.8). -/
def floatingPins (w : Nat) : Pins w := { rst := .low, inValid := .high, xIn := 0#w, xUndef := 8#w }

/-! ## Well-formedness and elaboration: each check refuses an ill-formed term beside the nearest accepted one -/

theorem test_wellFormed_refuses_below : Instr.wellFormed 8 (.step (-129)) = false ∧ Instr.wellFormed 8 (.step (-128)) = true := by decide
theorem test_wellFormed_refuses_above : Instr.wellFormed 8 (.step 128) = false ∧ Instr.wellFormed 8 (.step 127) = true := by decide

/-- 95_test_vectors.md 2.8, the six configuration rows. -/
theorem test_elaborate_refuses :
    elaborate ⟨16, 0, 128, 2⟩ = .error .hpCoeffOutOfRange ∧ elaborate ⟨16, 257, 128, 2⟩ = .error .hpCoeffOutOfRange ∧
    elaborate ⟨16, 16, 0, 2⟩ = .error .lpCoeffOutOfRange ∧ elaborate ⟨16, 16, 257, 2⟩ = .error .lpCoeffOutOfRange ∧
    elaborate ⟨16, 16, 128, 17⟩ = .error .scaleShiftOutOfRange ∧ elaborate ⟨16, 16, 128, -1⟩ = .error .scaleShiftOutOfRange ∧
    elaborate ⟨1, 16, 128, 1⟩ = .error .inWTooSmall := ⟨rfl, rfl, rfl, rfl, rfl, rfl, rfl⟩

theorem test_elaborate_accepts :
    elaborate ⟨16, 16, 128, 2⟩ = .ok cfg16 ∧ elaborate ⟨8, 256, 256, 8⟩ = .ok cfgMax ∧ elaborate ⟨8, 1, 256, 0⟩ = .ok cfg8 :=
  ⟨rfl, rfl, rfl⟩

/-! ## Decoding: words written out bit by bit -/

/-- 30_encoding.md R52 and P1: `ctl = 01`, `x_in = 0x03E8`. -/
theorem test_decode_step :
    decode (w := 16) { rst := .low, inValid := .high, xIn := 0b0000001111101000#16, xUndef := 0#16 } = .ok (.step 1000) := rfl
/-- P5: `ctl = 01`, `x_in = 0xFF9C` is `STEP -100`. -/
theorem test_decode_step_negative :
    decode (w := 16) { rst := .low, inValid := .high, xIn := 0b1111111110011100#16, xUndef := 0#16 } = .ok (.step (-100)) := rfl
/-- 30_encoding.md R52: `ctl = 00`, whatever stands on `x_in`. -/
theorem test_decode_nop : decode (nopPins 16) = .ok .nop := rfl
/-- 30_encoding.md R52 and P2, edge 7: `ctl = 11`, `x_in = 0x03E8` is `RESET 1000`, and `ctl = 10` is `RESET`. -/
theorem test_decode_reset :
    decode (w := 16) { rst := .high, inValid := .high, xIn := 0b0000001111101000#16, xUndef := 0#16 } = .ok (.reset true) ∧
    decode (w := 16) { rst := .high, inValid := .low, xIn := 0#16, xUndef := 0#16 } = .ok (.reset false) := ⟨rfl, rfl⟩
/-- 95_test_vectors.md 2.8: `rst = X`, and `STEP` with `x_in[3] = Z`; and `in_valid = Z`, also with `rst = 1` (R83). -/
theorem test_decode_refuses_undefined :
    decode (w := 16) { rst := .x, inValid := .low, xIn := 0#16, xUndef := 0#16 } = .error .undefinedRst ∧
    decode (w := 16) { rst := .high, inValid := .z, xIn := 0#16, xUndef := 0#16 } = .error .undefinedInValid ∧
    decode (floatingPins 16) = .error .undefinedXIn := ⟨rfl, rfl, rfl⟩
/-- Bit 0 of the table's word is `in_valid` and bit 1 is `rst`. -/
theorem test_decodeTableWord :
    decodeTableWord 8 0b00 = some .nop ∧ decodeTableWord 8 0b01 = some (.step 0) ∧
    decodeTableWord 8 0b10 = some (.reset false) ∧ decodeTableWord 8 0b11 = some (.reset true) := by decide

/-- P2, edge 7, and P5: a line and its encoding as 30_encoding.md R57 writes them. -/
theorem test_notation :
    (Line.reset (some 1000)).text = "RESET 1000" ∧ ((Line.reset (some 1000)).pins 16).text = "ctl=11 x_in=0x03E8" ∧
    ((Line.step (-100)).pins 16).text = "ctl=01 x_in=0xFF9C" := by decide

/-! ## Operations -/

/-- Vectors T5, T6, T11, T14. -/
theorem test_track : track 0 (-1) 4 = -1 ∧ track 0 255 1 = 0 ∧ track 101 0 128 = 50 ∧
    track (-2147483648) 2147483647 256 = 2147483647 := by decide
/-- 95_test_vectors.md 2.5. -/
theorem test_floorShr : floorShr (-1) 3 = -1 ∧ floorShr (-9) 3 = -2 ∧ floorShr 7 3 = 0 ∧ floorShr (-4294967294) 32 = -1 := by decide

/-- Vector V2: state and `y_scaled`. -/
theorem test_step_negative :
    after (exec (.step (-1000)) (mk cfg16 0 0 0 0 false [])) = some (-63, -469, -235, -937, true) ∧
    scaledAfter (exec (.step (-1000)) (mk cfg16 0 0 0 0 false [])) = some (-59) := by decide
/-- Vector E1, at the full width of the outputs, run as one step of the machine. -/
theorem test_step_widest :
    after (step (mk cfg8 (-128) 0 0 0 false [stepPins 8 127])) = some (-128, 255, 255, 255, true) := by decide
/-- Vector N1, with undefined levels on `x_in`. -/
theorem test_nop : after (step (mk cfg16 32 240 120 480 true [nopPins 16])) = some (32, 240, 120, 480, false) := by decide
/-- Vector RV2: `RESET 1000`. -/
theorem test_reset : after (step (mk cfg16 62 469 234 938 true [resetPins 16 true])) = some (0, 0, 0, 0, false) := by decide
/-- 95_test_vectors.md 2.8: `NOP` and `STEP 5` as the first edge after power-up, and a `RESET` there. -/
theorem test_powerUp :
    step (powerUp cfg16 1#16 2#17 3#17 4#17 true [nopPins 16]) = .refused .beforeFirstReset ∧
    step (powerUp cfg16 1#16 2#17 3#17 4#17 true [stepPins 16 5]) = .refused .beforeFirstReset ∧
    after (step (powerUp cfg16 1#16 2#17 3#17 4#17 true [resetPins 16 false])) = some (0, 0, 0, 0, false) :=
  ⟨rfl, rfl, by decide⟩
/-- The word `0b01` presented right after reset runs `STEP 0`. -/
theorem test_withFetchWord : after (step (State.reset.withFetchWord 8 0b01)) = some (0, 0, 0, 0, true) := by decide
/-- P6: its second `STEP` violates `SW32_NO_OVERFLOW` and its first does not (93_implementation_defined.md U6). -/
theorem test_software32 :
    ¬ Software32NoOverflow Config.reference 134217727 1006632960 503316480 (-2147483648) ∧
    ¬ Software32NoOverflow Config.reference 0 0 0 2147483647 ∧
    Software32NoOverflow Config.reference 0 0 0 1000 := by decide

/-- Two instances on one clock, each doing its own `NOP` and `STEP` (10_state.md R33; the values are V1's). -/
theorem test_stepInstances :
    (stepInstances [mk cfg16 5 6 7 8 true [nopPins 16], mk cfg16 0 0 0 0 false [stepPins 16 1000]]).map after =
      [some (5, 6, 7, 8, false), some (62, 469, 234, 938, true)] := by decide
/-- A read before the first `RESET` marks the state: the `RESET` edge that follows is refused too (60_exceptions.md R83). -/
theorem test_read_before_reset_marks :
    (hostActs (powerUp cfg8 1#8 2#9 3#9 4#9 true [resetPins 8 true]) [.read, .edge, .read]).1 =
      List.replicate 3 (.error .readBeforeFirstReset) := rfl
/-- Without that read the `RESET` edge is taken and the outputs then read zero (70_reset_and_hazards.md R90). -/
theorem test_reset_then_read :
    (hostActs (powerUp cfg8 1#8 2#9 3#9 4#9 true [resetPins 8 true]) [.edge, .read]).1 =
      [.ok none, .ok (some ⟨0, 0, 0, false⟩)] := rfl
/-- A refused edge marks the state and is not taken (60_exceptions.md R83). -/
theorem test_refused_edge_marks :
    (hostAct (powerUp cfg8 1#8 2#9 3#9 4#9 true [nopPins 8]) .edge).2.refused = some .beforeFirstReset := rfl

/-! ## Witnesses: for each obligation with hypotheses, a case that meets them -/

theorem witness_ControlWordSelectsOneOperation :
    ((nopPins 8).rst.bit? = some false ∧ (nopPins 8).inValid.bit? = some false) ∧
    ((stepPins 8 (-128)).rst.bit? = some false ∧ (stepPins 8 (-128)).inValid.bit? = some true ∧
      (stepPins 8 (-128)).xUndef = 0#8) ∧
    ((resetPins 8 true).rst.bit? = some true ∧ (resetPins 8 true).inValid.bit? = some true) ∧
    decode (resetPins 8 true) = .ok (.reset true) := ⟨by decide, by decide, by decide, rfl⟩

theorem witness_DecodesExactlyWithinContract :
    (nopPins 8).inContract = true ∧ (stepPins 8 127).inContract = true ∧ (floatingPins 8).inContract = false := by decide

theorem witness_DecodeOfEncodeIsIdentity :
    Instr.wellFormed cfg8.inW (.step (-128)) = true ∧ Instr.wellFormed cfg8.inW (.step 127) = true ∧
    Instr.wellFormed cfg8.inW .nop = true ∧ Instr.wellFormed cfg8.inW (.reset true) = true := by decide

theorem witness_EncodeOfDecodedKeepsTheWord :
    decode (w := cfg8.inW) (stepPins 8 (-128)) = .ok (.step (-128)) ∧ decode (w := cfg8.inW) (nopPins 8) = .ok .nop := ⟨rfl, rfl⟩

theorem witness_StepRunsTheDecodedOperation :
    (mk cfg8 0 0 0 0 false [stepPins 8 127, nopPins 8]).refused = none ∧
    (mk cfg8 0 0 0 0 false [stepPins 8 127, nopPins 8]).edges = stepPins 8 127 :: [nopPins 8] ∧
    decode (stepPins 8 127) = .ok (.step 127) ∧ (mk cfg8 0 0 0 0 false []).refused = none ∧
    decode (Pins.ofWord (mk cfg8 0 0 0 0 false []).cfg.inW (0x1FD % 2 ^ 16)) = .ok (.step 127) := ⟨rfl, rfl, rfl, rfl, rfl⟩

theorem witness_NopHoldsTheFilter :
    (mk cfg8 1 2 3 4 true [nopPins 8, nopPins 8, stepPins 8 1]).refused = none ∧
    (mk cfg8 1 2 3 4 true [nopPins 8, nopPins 8, stepPins 8 1]).resetSeen = true ∧
    (mk cfg8 1 2 3 4 true [nopPins 8, nopPins 8, stepPins 8 1]).edges = [nopPins 8, nopPins 8] ++ [stepPins 8 1] ∧
    [nopPins 8, nopPins 8].all Pins.isNop = true ∧ [nopPins 8, nopPins 8] ≠ [] := ⟨rfl, rfl, rfl, rfl, by decide⟩

/-- For `StepRunsTheThreeStages` and `NotationStandsForItsPorts`: both ends of the operand's range. -/
theorem witness_StepRunsTheThreeStages :
    (mk cfg8 127 255 (-254) 0 false []).refused = none ∧ (mk cfg8 127 255 (-254) 0 false []).resetSeen = true ∧
    Instr.wellFormed (mk cfg8 127 255 (-254) 0 false []).cfg.inW (.step (-128)) = true ∧
    Instr.wellFormed (mk cfg8 127 255 (-254) 0 false []).cfg.inW (.step 127) = true := by decide

theorem witness_HpOutFeedsNothing :
    (mk cfg16 62 469 234 938 true []).refused = none ∧ (mk cfg16 62 469 234 938 true []).resetSeen = true ∧
    Instr.wellFormed (mk cfg16 62 469 234 938 true []).cfg.inW (.step (-32768)) = true := by decide

theorem witness_WholeCascadeSettles :
    (mk cfg16 100 (-5) 7 0 true []).refused = none ∧ (mk cfg16 100 (-5) 7 0 true []).resetSeen = true ∧
    Instr.wellFormed (mk cfg16 100 (-5) 7 0 true []).cfg.inW (.step 32767) = true := by decide

theorem witness_HeldResetEqualsOneReset :
    (powerUp cfg8 1#8 2#9 3#9 4#9 true [resetPins 8 true, resetPins 8 false, nopPins 8]).refused = none ∧
    (powerUp cfg8 1#8 2#9 3#9 4#9 true [resetPins 8 true, resetPins 8 false, nopPins 8]).edges =
      [resetPins 8 true, resetPins 8 false] ++ [nopPins 8] ∧
    [resetPins 8 true, resetPins 8 false].all Pins.isReset = true ∧ [resetPins 8 true, resetPins 8 false] ≠ [] := ⟨rfl, rfl, rfl, by decide⟩

theorem witness_RefusalsOutsideTheContract :
    ((mk cfg8 0 0 0 0 false [floatingPins 8]).refused = none ∧
      (mk cfg8 0 0 0 0 false [floatingPins 8]).edges = floatingPins 8 :: [] ∧ (floatingPins 8).inContract = false) ∧
    ((powerUp cfg8 0#8 0#9 0#9 0#9 false [stepPins 8 5]).refused = none ∧
      (powerUp cfg8 0#8 0#9 0#9 0#9 false [stepPins 8 5]).edges = stepPins 8 5 :: [] ∧
      (stepPins 8 5).inContract = true ∧ (stepPins 8 5).isReset = false ∧
      (powerUp cfg8 0#8 0#9 0#9 0#9 false [stepPins 8 5]).resetSeen = false) ∧
    ((mk cfg8 0 0 0 0 false [resetPins 8 true]).withRefused .readBeforeFirstReset).refused =
      some .readBeforeFirstReset := ⟨⟨rfl, rfl, by decide⟩, ⟨rfl, rfl, by decide, by decide, rfl⟩, rfl⟩

theorem witness_ReadsChangeNothing :
    (mk cfg8 1 2 3 4 true [stepPins 8 5]).refused = none ∧ (mk cfg8 1 2 3 4 true [stepPins 8 5]).resetSeen = true ∧
    [HostAct.read, .edge, .read, .edge].filter (· == .edge) = [.edge, .edge] := ⟨rfl, rfl, rfl⟩

theorem witness_DefinedEdgesNeverFail :
    ((mk cfg8 0 0 0 0 false [stepPins 8 (-128)]).refused = none ∧
      (mk cfg8 0 0 0 0 false [stepPins 8 (-128)]).edges = stepPins 8 (-128) :: [] ∧ (stepPins 8 (-128)).inContract = true ∧
      (mk cfg8 0 0 0 0 false [stepPins 8 (-128)]).resetSeen = true) ∧
    ((powerUp cfg8 9#8 9#9 9#9 9#9 true [resetPins 8 true]).refused = none ∧
      (powerUp cfg8 9#8 9#9 9#9 9#9 true [resetPins 8 true]).edges = resetPins 8 true :: [] ∧
      (resetPins 8 true).inContract = true ∧ (resetPins 8 true).isReset = true) :=
  ⟨⟨rfl, rfl, by decide, rfl⟩, rfl, rfl, by decide, by decide⟩

/-- For `TrackRoundsTowardMinusInfinity` and `TrackLaws`: both ends of the coefficient's range, each side of the input,
and an instance with both coefficients 256. -/
theorem witness_TrackLaws :
    (1 ≤ 1 ∧ 1 ≤ 256) ∧ (1 ≤ 256 ∧ 256 ≤ 256) ∧ ((0 : Int) < 255) ∧ ((-1 : Int) < 0) ∧ track 0 255 1 = 0 ∧
    (mk cfgMax 5 6 7 8 false []).resetSeen = true ∧
    Instr.wellFormed (mk cfgMax 5 6 7 8 false []).cfg.inW (.step (-128)) = true ∧
    (mk cfgMax 5 6 7 8 false []).cfg.hpCoeff = 256 ∧ (mk cfgMax 5 6 7 8 false []).cfg.lpCoeff = 256 := by decide

/-- The interval of the first fact, and the ranges of the second at their ends, on each side of the input. -/
theorem witness_NoOverflowFacts :
    ((-128 : Int) ≤ -128 ∧ (-128 : Int) ≤ 127 ∧ (127 : Int) ≤ 127 ∧ 1 ≤ 256) ∧
    (fitsSigned cfg8.inW (-128) ∧ fitsSigned cfg8.inW 127 ∧ inSignalRange cfg8.inW (-254) ∧ inSignalRange cfg8.inW 255 ∧
      (-128 : Int) ≤ 127 ∧ (-128 : Int) < 127) := by decide

theorem witness_DatapathWidthsSuffice :
    fitsSigned cfg8.outW (-256) ∧ fitsSigned cfg8.outW 255 ∧ 1 ≤ 256 ∧ cfg8.diffW ≤ 10 ∧ cfg8.prodW ≤ 19 := by decide

theorem witness_ResultsDoNotDependOnWidth :
    let s := mk ⟨16, 1, 256, 0, by decide, by decide, by decide, by decide⟩ (-128) 255 (-254) 3 true []
    let t := mk cfg8 (-128) 255 (-254) 0 false []
    s.resetSeen = true ∧ t.resetSeen = true ∧ s.refused = t.refused ∧
    s.cfg.hpCoeff = t.cfg.hpCoeff ∧ s.cfg.lpCoeff = t.cfg.lpCoeff ∧
    s.cfg.scaleShift = t.cfg.scaleShift ∧ s.hpState.toInt = t.hpState.toInt ∧ s.lp1State.toInt = t.lp1State.toInt ∧
    s.lp2State.toInt = t.lp2State.toInt ∧ Instr.wellFormed s.cfg.inW (.step 127) = true ∧
    Instr.wellFormed t.cfg.inW (.step 127) = true ∧ s.cfg.inW ≠ t.cfg.inW := by decide

theorem witness_StepCornerCases :
    (mk cfg255 0 1 2 3 false []).resetSeen = true ∧ (mk cfg255 0 1 2 3 false []).hpState = 0#_ ∧ (0 : Int) < 1 ∧
    (1 : Int) * (mk cfg255 0 1 2 3 false []).cfg.hpCoeff ≤ 255 ∧
    Instr.wellFormed (mk cfg255 0 1 2 3 false []).cfg.inW (.step 1) = true := by decide

/-- For `OutputPortsShowTheRegisters` and `ScalingRoundsTowardMinusInfinity`: a written state, and the shift at both
ends of its range. -/
theorem witness_ScalingRoundsTowardMinusInfinity :
    ((mk cfg8 0 0 (-254) 0 false []).refused = none ∧ (mk cfg8 0 0 (-254) 0 false []).resetSeen = true ∧
      (mk cfg8 0 0 (-254) 0 false []).cfg.scaleShift = 0) ∧
    ((mk cfgMax 0 0 255 0 false []).refused = none ∧ (mk cfgMax 0 0 255 0 false []).resetSeen = true ∧
      (mk cfgMax 0 0 255 0 false []).cfg.scaleShift = (mk cfgMax 0 0 255 0 false []).cfg.inW) := by decide

theorem witness_LatencyIsOneEdge :
    ((mk cfg8 0 0 0 0 false [stepPins 8 127, nopPins 8]).refused = none ∧
      (mk cfg8 0 0 0 0 false [stepPins 8 127, nopPins 8]).edges = stepPins 8 127 :: [nopPins 8] ++ [] ∧
      decode (stepPins 8 127) = .ok (.step 127) ∧ [nopPins 8].all Pins.isNop = true ∧
      (mk cfg8 0 0 0 0 false [stepPins 8 127, nopPins 8]).resetSeen = true) ∧
    ((mk cfg8 0 0 0 0 false [stepPins 8 127, stepPins 8 (-128)]).refused = none ∧
      (mk cfg8 0 0 0 0 false [stepPins 8 127, stepPins 8 (-128)]).edges = stepPins 8 127 :: stepPins 8 (-128) :: [] ∧
      decode (stepPins 8 127) = .ok (.step 127) ∧ decode (stepPins 8 (-128)) = .ok (.step (-128)) ∧
      (mk cfg8 0 0 0 0 false [stepPins 8 127, stepPins 8 (-128)]).resetSeen = true) :=
  ⟨⟨rfl, rfl, rfl, by decide, rfl⟩, rfl, rfl, rfl, rfl, rfl⟩

/-- For `OutValidMarksAStep` and `ParametersNeverChange`: steps that answer a next state. -/
theorem witness_OutValidMarksAStep :
    (∃ t, step (mk cfg8 0 0 0 0 false [stepPins 8 127]) = .next t) ∧
    (∃ t, step (mk cfg8 0 0 0 0 true [nopPins 8]) = .next t) := ⟨⟨_, rfl⟩, _, rfl⟩

theorem witness_SamplingAtAnEdge :
    (mk cfg8 1 2 3 4 true [nopPins 8]).refused = none ∧ (mk cfg8 1 2 3 4 true [nopPins 8]).resetSeen = true ∧
    (mk cfg8 1 2 3 4 true [nopPins 8]).edges = nopPins 8 :: [] ∧
    (nopPins 8).isNop = true ∧
    (Observation.mk 1 2 3 true).admittedAtEdge (Observation.mk 1 2 3 true) (Observation.mk 1 2 3 false) = true ∧
    (Observation.mk 1 2 3 false).admittedAtEdge (Observation.mk 1 2 3 true) (Observation.mk 1 2 3 false) = true ∧
    (Observation.mk 9 2 3 true).admittedAtEdge (Observation.mk 1 2 3 true) (Observation.mk 1 2 3 false) = false := ⟨rfl, rfl, rfl, by decide⟩

/-- An in-range state at the ends of the ranges, and one whose registers are unwritten, each with a step that answers. -/
theorem witness_EveryStepKeepsTheRanges :
    ((mk cfg8 (-128) 255 (-254) 255 false [stepPins 8 127]).InRange ∧
      ∃ t, step (mk cfg8 (-128) 255 (-254) 255 false [stepPins 8 127]) = .next t) ∧
    ((powerUp cfg8 9#8 256#9 256#9 256#9 true [resetPins 8 false]).resetSeen = false ∧
      ∃ t, step (powerUp cfg8 9#8 256#9 256#9 256#9 true [resetPins 8 false]) = .next t) :=
  ⟨⟨by decide, _, rfl⟩, by decide, _, rfl⟩

/-- For `LegalRunsStayInRange` and the second clause of `ObservationFollowsTheRun`: a run from power-up. -/
theorem witness_LegalRunsStayInRange :
    (powerUp cfg8 9#8 9#9 9#9 9#9 true [resetPins 8 true, stepPins 8 (-128), nopPins 8]).refused = none ∧
    (powerUp cfg8 9#8 9#9 9#9 9#9 true [resetPins 8 true, stepPins 8 (-128), nopPins 8]).edges =
      resetPins 8 true :: [stepPins 8 (-128), nopPins 8] ∧
    (resetPins 8 true).isReset = true ∧ [stepPins 8 (-128), nopPins 8].all Pins.inContract = true ∧
    2 ≤ [stepPins 8 (-128), nopPins 8].length := ⟨rfl, rfl, by decide⟩

theorem witness_ObservationFollowsTheRun :
    (mk cfg8 0 0 0 0 false []).refused = none ∧ (mk cfg8 0 0 0 0 false []).edges = [] := by decide

theorem witness_FirstStepAfterResetStartsFromZero :
    (powerUp cfg8 9#8 9#9 9#9 9#9 true [resetPins 8 false, stepPins 8 127]).refused = none ∧
    (powerUp cfg8 9#8 9#9 9#9 9#9 true [resetPins 8 false, stepPins 8 127]).edges =
      resetPins 8 false :: stepPins 8 127 :: [] ∧
    (resetPins 8 false).isReset = true ∧ decode (stepPins 8 127) = .ok (.step 127) := ⟨rfl, rfl, by decide, rfl⟩

theorem witness_ResetErasesThePast :
    (powerUp cfg8 9#8 9#9 9#9 9#9 true [resetPins 8 false, stepPins 8 127]).edges =
      resetPins 8 false :: [stepPins 8 127] ∧ (resetPins 8 false).isReset = true := ⟨rfl, by decide⟩

/-- Two ticks, the first with `NOP` edges around its `STEP`. -/
theorem witness_OneValidOutputPerTick :
    (mk cfg8 1 2 3 4 true [nopPins 8, stepPins 8 127, nopPins 8, stepPins 8 (-128)]).refused = none ∧
    (mk cfg8 1 2 3 4 true [nopPins 8, stepPins 8 127, nopPins 8, stepPins 8 (-128)]).resetSeen = true ∧
    (mk cfg8 1 2 3 4 true [nopPins 8, stepPins 8 127, nopPins 8, stepPins 8 (-128)]).edges =
      [[nopPins 8, stepPins 8 127, nopPins 8], [stepPins 8 (-128)]].flatten ∧
    (mk cfg8 1 2 3 4 true [nopPins 8, stepPins 8 127, nopPins 8, stepPins 8 (-128)]).edges.all Pins.inContract = true ∧
    hostOneStepPerTick [[nopPins 8, stepPins 8 127, nopPins 8], [stepPins 8 (-128)]] = true :=
  ⟨rfl, rfl, rfl, by decide, by decide⟩

theorem witness_NopEdgesAffectNoResult :
    (mk cfg8 1 2 3 4 true [nopPins 8, stepPins 8 127, nopPins 8, resetPins 8 true]).refused = none ∧
    (mk cfg8 1 2 3 4 true [nopPins 8, stepPins 8 127, nopPins 8, resetPins 8 true]).resetSeen = true ∧
    (mk cfg8 1 2 3 4 true [nopPins 8, stepPins 8 127, nopPins 8, resetPins 8 true]).edges.all Pins.inContract = true := by decide

/-- A state of `cfg16` with the sample `x` held for `n + 1` edges. -/
def held (x : Int) (n : Nat) : State := mk cfg16 0 7 8 9 true (List.replicate (n + 1) (encode cfg16.inW (.step x)))

/-- Each side of the input for a stage, at both ends of the coefficient's range; and states with a sample held, one
negative, one zero, one positive. -/
theorem witness_ConstantInputSettles :
    (1 ≤ 1 ∧ 1 ≤ 256 ∧ (-128 : Int) < 127 ∧ (127 - (-128) : Int).toNat ≤ 255) ∧ (1 ≤ 256 ∧ 256 ≤ 256) ∧
    ∀ x ∈ [(-2 : Int), 0, 3], Instr.wellFormed cfg16.inW (.step x) = true ∧
      ∃ n, (held x n).cfg = cfg16 ∧ (held x n).refused = none ∧ (held x n).resetSeen = true ∧
        (held x n).hpState = 0#_ ∧ x.natAbs ≤ n ∧
        (held x n).edges = List.replicate (n + 1) (encode (held x n).cfg.inW (.step x)) := by
  refine ⟨by decide, by decide, fun x hx => ⟨?_, x.natAbs, rfl, rfl, rfl, ?_, le_refl _, rfl⟩⟩
  · revert x; decide
  · exact (by decide : narrow 16 0 = 0#16)

theorem witness_ElaborationRefusesIllegalParameters :
    elaborate ⟨2, 1, 1, 2⟩ = .ok ⟨2, 1, 1, 2, by decide, by decide, by decide, by decide⟩ := rfl

/-- A `STEP` within 32 bits, and P6's second `STEP`, which is not. -/
theorem witness_AgreesWithSoftwareWithoutOverflow :
    (mk Config.reference 62 469 234 938 true []).resetSeen = true ∧
    Instr.wellFormed (mk Config.reference 62 469 234 938 true []).cfg.inW (.step 1000) = true ∧
    Software32NoOverflow Config.reference 62 469 234 1000 ∧
    Instr.wellFormed Config.reference.inW (.step (-2147483648)) = true ∧
    ¬ Software32NoOverflow Config.reference 134217727 1006632960 503316480 (-2147483648) := by decide

end Sys2Proof.Tests
end

section
/-! The meanings of the operations and the read of the outputs, one equation each, and the bounds of the stage function.
They say of `exec`, `readOutputs` and `track` what the proofs below need, so that none of them unfolds these. -/

namespace Sys2Proof.Machine

/-! ## One equation per operation -/

theorem whenWritten_written {s next : State} (h : s.resetSeen = true) : whenWritten s next = .next next :=
  whenWritten_eq_next.2 ⟨h, rfl⟩

/-- `NOP` (40_operations.md R60), before and after the first `RESET`. -/
theorem exec_nop (s : State) : exec .nop s = whenWritten s (s.withOutValid false) := rfl

/-- `STEP` (40_operations.md R61), before and after the first `RESET`. -/
theorem exec_step (x : Int) (s : State) :
    exec (.step x) s = whenWritten s
      ((s.withFilter (stepValues s.cfg s.hpState.toInt s.lp1State.toInt s.lp2State.toInt
        (centeredSample s.cfg x))).withOutValid true) := rfl

/-- `RESET` (70_reset_and_hazards.md R90) answers from every state. -/
theorem exec_reset (v : Bool) (s : State) :
    exec (.reset v) s = .next ((s.withFilterCleared.withOutValid false).withResetSeen) := rfl

/-- `STEP` of a sample the port can carry, once the registers are written. -/
theorem exec_step_of_wellFormed {s : State} {x : Int} (hs : s.resetSeen = true)
    (hx : Instr.wellFormed s.cfg.inW (.step x) = true) :
    exec (.step x) s = .next ((s.withFilter
      (stepValues s.cfg s.hpState.toInt s.lp1State.toInt s.lp2State.toInt x)).withOutValid true) := by
  rw [exec_step, whenWritten_written hs, centeredSample_of_wellFormed hx]

/-! ## A value that fits stands in its register as it is -/

theorem withFilter_hpState_toInt {s : State} {v : StepValues} (h : fitsSigned s.cfg.inW v.hpNew) :
    (s.withFilter v).hpState.toInt = v.hpNew :=
  toInt_narrow (Nat.le_of_lt s.cfg.inW_legal) h

theorem withFilter_hpOutQ_toInt {s : State} {v : StepValues} (h : fitsSigned (s.cfg.inW + 1) v.hpOut) :
    (s.withFilter v).hpOutQ.toInt = v.hpOut :=
  toInt_narrow (by omega) h

/-! ## The outputs of a state within the contract -/

/-- What the registers drive on the output ports (30_encoding.md R53), whether or not a read is refused. -/
def State.drivenOutputs (s : State) : Outputs s.cfg.inW :=
  { yHp := s.hpOutQ, yLp := s.lp2State, yScaled := scaledOutput s, outValid := s.outValidQ }

@[simp] theorem State.drivenOutputs_yHp (s : State) : s.drivenOutputs.yHp = s.hpOutQ := rfl
@[simp] theorem State.drivenOutputs_yLp (s : State) : s.drivenOutputs.yLp = s.lp2State := rfl
@[simp] theorem State.drivenOutputs_yScaled (s : State) : s.drivenOutputs.yScaled = scaledOutput s := rfl
@[simp] theorem State.drivenOutputs_outValid (s : State) : s.drivenOutputs.outValid = s.outValidQ := rfl

theorem readOutputs_of_written {s : State} (hr : s.refused = none) (hs : s.resetSeen = true) :
    readOutputs s = .ok s.drivenOutputs :=
  readOutputs_eq_ok.2 ⟨hr, hs, rfl⟩

theorem observedOutputs_of_written {s : State} (hr : s.refused = none) (hs : s.resetSeen = true) :
    observedOutputs s = .ok s.drivenOutputs.observed := by
  simp only [observedOutputs, readOutputs_of_written hr hs]

/-- Between a step that answers and the next edge the outputs can be read. -/
theorem step_next_readable {s t : State} (h : step s = .next t) : t.refused = none ∧ t.resetSeen = true := by
  obtain ⟨hr, p, rest, hp, lp1, lp2, hpOut, valid, -, rfl⟩ := step_next_shape h
  exact ⟨hr, rfl⟩

/-! ## The range of the stage function -/

/-- A stage moves toward its input and never past it (40_operations.md R64). -/
theorem track_between (s u : Int) {coeff : Nat} (hc : coeff ≤ 256) :
    min s u ≤ track s u coeff ∧ track s u coeff ≤ max s u := by
  have hc0 : (0 : Int) ≤ coeff := Int.natCast_nonneg coeff
  have hc1 : (coeff : Int) ≤ 256 := by exact_mod_cast hc
  rw [track_eq]
  rcases le_total s u with h | h
  · have low : 0 ≤ (u - s) * coeff := mul_nonneg (by omega) hc0
    have high : (u - s) * coeff ≤ (u - s) * 256 := mul_le_mul_of_nonneg_left hc1 (by omega)
    omega
  · have low : (u - s) * 256 ≤ (u - s) * coeff := mul_le_mul_of_nonpos_left hc1 (by omega)
    have high : (u - s) * coeff ≤ 0 := mul_nonpos_of_nonpos_of_nonneg (by omega) hc0
    omega

/-- A stage leaves no width that holds both its state and its input. -/
theorem fitsSigned_track {w : Nat} {s u : Int} {coeff : Nat} (hc : coeff ≤ 256) (hs : fitsSigned w s)
    (hu : fitsSigned w u) : fitsSigned w (track s u coeff) := by
  obtain ⟨low, high⟩ := track_between s u hc
  exact ⟨(le_min hs.1 hu.1).trans low, high.trans (max_le hs.2 hu.2)⟩

/-- A difference of two values of `w` bits needs one bit more. -/
theorem fitsSigned_sub {w : Nat} {a b : Int} (hw : 1 ≤ w) (ha : fitsSigned w a) (hb : fitsSigned w b) :
    fitsSigned (w + 1) (a - b) := by
  obtain ⟨k, rfl⟩ : ∃ k, w = k + 1 := ⟨w - 1, by omega⟩
  simp only [fitsSigned, Nat.add_sub_cancel, pow_succ] at *
  push_cast at *
  omega

/-- The new `hp_state` fits its register (10_state.md R22). -/
theorem fitsSigned_hpNew {c : Config} {hp lp1 lp2 x : Int} (hhp : fitsSigned c.inW hp)
    (hx : fitsSigned c.inW x) : fitsSigned c.inW (stepValues c hp lp1 lp2 x).hpNew :=
  fitsSigned_track c.hpCoeff_legal.2 hhp hx

/-- The high-passed signal fits its register (10_state.md R25). -/
theorem fitsSigned_hpOut {c : Config} {hp lp1 lp2 x : Int} (hhp : fitsSigned c.inW hp)
    (hx : fitsSigned c.inW x) : fitsSigned (c.inW + 1) (stepValues c hp lp1 lp2 x).hpOut :=
  fitsSigned_sub (Nat.le_of_lt c.inW_legal) hx (fitsSigned_hpNew (lp1 := lp1) (lp2 := lp2) hhp hx)

end Sys2Proof.Machine
end

section
/-! The obligations of 10_state.md about the flag, the high-passed signal and the values after a `RESET`. -/

namespace Sys2Proof.Machine

/-! ## The status flag -/

theorem outValidAfter_eq_true {i : Instr} : outValidAfter i = true ↔ ∃ x, i = .step x := by
  cases i <;> simp [outValidAfter]

theorem exec_next_outValidQ {i : Instr} {s t : State} (h : exec i s = .next t) :
    t.outValidQ = outValidAfter i := by
  rcases exec_next_cases h with ⟨rfl, -, rfl⟩ | ⟨x, rfl, -, rfl⟩ | ⟨v, rfl, rfl⟩ <;> rfl

theorem step_next_outValidQ {s t : State} (h : step s = .next t) :
    t.outValidQ = true ↔ ∃ p rest x, s.edges = p :: rest ∧ decode p = .ok (.step x) := by
  obtain ⟨-, p, rest, i, he, hd, hx⟩ := step_next_cases h
  rw [exec_next_outValidQ hx, outValidAfter_eq_true]
  constructor
  · rintro ⟨x, rfl⟩
    exact ⟨p, rest, x, he, hd⟩
  · rintro ⟨p', rest', x, he', hd'⟩
    obtain ⟨rfl, -⟩ := List.cons.inj (he.symm.trans he')
    exact ⟨x, Except.ok.inj (hd.symm.trans hd')⟩

/-- Every operation writes `out_valid_q` and none reads it. -/
theorem exec_withOutValid (i : Instr) (s : State) (b : Bool) : exec i (s.withOutValid b) = exec i s := by
  cases i with
  | nop => rfl
  | step x => rfl
  | reset v => rfl

/-- Settles O25: the operation at the edge alone decides the flag, and each operation overwrites it unread. -/
theorem outValidMarksAStep : Obligations.OutValidMarksAStep := by
  refine ⟨fun s t h => ⟨step_next_outValidQ h, ?_⟩, exec_withOutValid⟩
  obtain ⟨hr, hs⟩ := step_next_readable h
  exact ⟨t.drivenOutputs, readOutputs_of_written hr hs, t.drivenOutputs_outValid⟩

/-! ## The register of the high-passed signal -/

/-- After a `STEP` the register holds the exact difference of the sample and the new `hp_state`: neither is cut off. -/
theorem withFilter_hpOutQ_eq_sub (s : State) (lp1 lp2 : Int) {x : Int} (hx : fitsSigned s.cfg.inW x) :
    (s.withFilter (stepValues s.cfg s.hpState.toInt lp1 lp2 x)).hpOutQ.toInt =
      x - (s.withFilter (stepValues s.cfg s.hpState.toInt lp1 lp2 x)).hpState.toInt := by
  have hhp := fitsSigned_toInt s.hpState
  rw [withFilter_hpOutQ_toInt (fitsSigned_hpOut hhp hx), withFilter_hpState_toInt (fitsSigned_hpNew hhp hx),
    stepValues_hpOut]

/-- `STEP` writes `hp_out_q` and does not read it. -/
theorem exec_step_hpOutQ_unread (x : Int) (s : State) (q : BitVec (s.cfg.inW + 1)) :
    exec (.step x) { s with hpOutQ := q } = exec (.step x) s := rfl

/-- `RESET` clears `hp_out_q` and does not read it. -/
theorem exec_reset_hpOutQ_unread (v : Bool) (s : State) (q : BitVec (s.cfg.inW + 1)) :
    exec (.reset v) { s with hpOutQ := q } = exec (.reset v) s := rfl

/-- Settles O26: the tracker stays between its state and the sample, so the difference is exact; and what stood in
`hp_out_q` is overwritten unread. -/
theorem hpOutFeedsNothing : Obligations.HpOutFeedsNothing := by
  refine ⟨fun s x hs hx => ?_, fun s x v q => ⟨exec_step_hpOutQ_unread x s q, exec_reset_hpOutQ_unread v s q⟩⟩
  exact ⟨_, (State.drivenOutputs _).observed, exec_step_of_wellFormed hs hx,
    withFilter_hpOutQ_eq_sub s _ _ (of_decide_eq_true hx), fun hr => ⟨observedOutputs_of_written hr hs, rfl⟩⟩

/-! ## The values after a `RESET` -/

/-- Settles O12: `RESET` clears the five registers whatever they held, and `State.reset` is written out with zeros. -/
theorem registersAreZeroAfterReset : Obligations.RegistersAreZeroAfterReset := by
  refine ⟨fun s v => ⟨_, exec_reset v s, ?_⟩, rfl, rfl, rfl, rfl, rfl⟩
  simp

end Sys2Proof.Machine
end

section
/-! The obligation of 30_encoding.md about the output ports, and the range of `floorShr` on which it rests. -/

namespace Sys2Proof.Machine

/-- A floor shift moves a value toward zero and never past it (`-1` stays where it is). -/
theorem floorShr_between (v : Int) (n : Nat) : min v 0 ≤ floorShr v n ∧ floorShr v n ≤ max v 0 := by
  have hpos : (1 : Int) ≤ ((2 ^ n : Nat) : Int) := by exact_mod_cast Nat.one_le_two_pow
  obtain ⟨low, high⟩ := floorShr_bounds v n
  constructor
  · by_contra! h
    obtain ⟨below, neg⟩ := lt_min_iff.1 h
    have : (floorShr v n + 1) * ((2 ^ n : Nat) : Int) ≤ floorShr v n + 1 :=
      mul_le_of_one_le_right (by omega) hpos
    omega
  · by_contra! h
    obtain ⟨above, pos⟩ := max_lt_iff.1 h
    have : floorShr v n ≤ floorShr v n * ((2 ^ n : Nat) : Int) := le_mul_of_one_le_right pos.le hpos
    omega

theorem fitsSigned_zero (w : Nat) : fitsSigned w 0 := by
  have := Nat.one_le_two_pow (n := w - 1)
  constructor <;> omega

/-- A floor shift needs no more bits than the value it shifts. -/
theorem fitsSigned_floorShr {w : Nat} {v : Int} (n : Nat) (hv : fitsSigned w v) : fitsSigned w (floorShr v n) := by
  obtain ⟨low, high⟩ := floorShr_between v n
  have h0 := fitsSigned_zero w
  exact ⟨(le_min hv.1 h0.1).trans low, high.trans (max_le hv.2 h0.2)⟩

/-- The port `y_scaled` carries the exact shifted value (40_operations.md R67): its width cuts nothing off. -/
theorem scaledOutput_toInt (s : State) :
    (scaledOutput s).toInt = floorShr s.lp2State.toInt s.cfg.scaleShift :=
  toInt_narrow (by omega) (fitsSigned_floorShr _ (fitsSigned_toInt s.lp2State))

/-- Settles O22: three ports drive their registers bit for bit, and the shifted `lp2_state` fits the fourth because a
floor shift never leaves the range of what it shifts. -/
theorem outputPortsShowTheRegisters : Obligations.OutputPortsShowTheRegisters := by
  intro s hr hs
  exact ⟨s.drivenOutputs, readOutputs_of_written hr hs, s.drivenOutputs_yHp, s.drivenOutputs_yLp,
    s.drivenOutputs_outValid, scaledOutput_toInt s⟩

end Sys2Proof.Machine
end

section
/-! The obligations of 40_operations.md about the cascade of one `STEP`, the rounding of the stage function and the
scaled output. -/

namespace Sys2Proof.Machine

/-! ## The floor of the exact rational -/

/-- The floor shift is the floor of the exact quotient (00_scope.md R8). -/
theorem floorShr_eq_floor (v : Int) (n : Nat) : floorShr v n = ⌊(v : Rat) / 2 ^ n⌋ := by
  have h := Rat.floor_intCast_div_natCast v (2 ^ n)
  rw [Nat.cast_pow, Nat.cast_ofNat] at h
  exact h.symm

/-- Settles O16: the stage function's shift by 8 is the floor of the exact quotient by `2^8 = 256`. -/
theorem trackRoundsTowardMinusInfinity : Obligations.TrackRoundsTowardMinusInfinity := by
  intro s u C _ _
  have h256 : (2 : Rat) ^ 8 = 256 := by norm_num
  have hfloor := floorShr_eq_floor ((u - s) * C) 8
  rw [h256] at hfloor
  exact ⟨rfl, congrArg (s + ·) hfloor⟩

/-! ## The scaled output -/

/-- A floor shift never increases the magnitude. -/
theorem natAbs_floorShr_le (v : Int) (n : Nat) : (floorShr v n).natAbs ≤ v.natAbs := by
  obtain ⟨low, high⟩ := floorShr_between v n
  omega

/-- Shifted by all its bits but the sign, a value leaves its sign only. -/
theorem floorShr_eq_sign {n : Nat} {v : Int} (hv : fitsSigned (n + 1) v) : floorShr v n = -1 ∨ floorShr v n = 0 := by
  obtain ⟨low, high⟩ := hv
  rw [Nat.add_sub_cancel] at low high
  have hpos : (0 : Int) < ((2 ^ n : Nat) : Int) := by positivity
  have hlow : -1 ≤ floorShr v n := Int.le_ediv_of_mul_le hpos (by omega)
  have hhigh : floorShr v n < 1 := Int.ediv_lt_of_lt_mul hpos (by omega)
  omega

/-- Without a shift `y_scaled` is `lp2_state` bit for bit. -/
theorem scaledOutput_of_shift_zero {s : State} (h : s.cfg.scaleShift = 0) : scaledOutput s = s.lp2State := by
  rw [scaledOutput, h, floorShr_zero, narrow_toInt]

/-- Settles O23: the port carries the exact floor shift of `lp2_state`, whose `IN_W + 1` bits a shift by `IN_W` leaves
only the sign of. -/
theorem scalingRoundsTowardMinusInfinity : Obligations.ScalingRoundsTowardMinusInfinity := by
  intro s hr hs
  refine ⟨s.drivenOutputs, readOutputs_of_written hr hs, ?_⟩
  rw [State.drivenOutputs_yScaled, State.drivenOutputs_yLp, scaledOutput_toInt]
  exact ⟨floorShr_eq_floor _ _, scaledOutput_of_shift_zero,
    fun h => floorShr_eq_sign (by rw [h]; exact fitsSigned_toInt s.lp2State), natAbs_floorShr_le _ _⟩

/-! ## The cascade of one `STEP` -/

/-- The decoder answers `STEP` of the signed value of a defined `x_in` (30_encoding.md R51, R52). -/
theorem decode_step_pins {w : Nat} (b : BitVec w) :
    decode { rst := .low, inValid := .high, xIn := b, xUndef := 0#w } = .ok (.step b.toInt) := by
  simp [decode, Level.bit?]

/-- The new `lp1_state` fits its register (10_state.md R23). -/
theorem fitsSigned_lp1New {c : Config} {hp lp1 lp2 x : Int} (hhp : fitsSigned c.inW hp)
    (hlp1 : fitsSigned (c.inW + 1) lp1) (hx : fitsSigned c.inW x) :
    fitsSigned (c.inW + 1) (stepValues c hp lp1 lp2 x).lp1New :=
  fitsSigned_track c.lpCoeff_legal.2 hlp1 (fitsSigned_hpOut (lp1 := lp1) (lp2 := lp2) hhp hx)

/-- The new `lp2_state` fits its register (10_state.md R24). -/
theorem fitsSigned_lp2New {c : Config} {hp lp1 lp2 x : Int} (hhp : fitsSigned c.inW hp)
    (hlp1 : fitsSigned (c.inW + 1) lp1) (hlp2 : fitsSigned (c.inW + 1) lp2) (hx : fitsSigned c.inW x) :
    fitsSigned (c.inW + 1) (stepValues c hp lp1 lp2 x).lp2New :=
  fitsSigned_track c.lpCoeff_legal.2 hlp2 (fitsSigned_lp1New (lp2 := lp2) hhp hlp1 hx)

/-- The four values that a `STEP` of `x` computes from the registers of `s`. -/
def State.stepValuesOf (s : State) (x : Int) : StepValues :=
  stepValues s.cfg s.hpState.toInt s.lp1State.toInt s.lp2State.toInt x

/-- The registers after a `STEP` hold the cascade's exact integers: no width cuts one off (40_operations.md R70). -/
theorem withFilter_stepValuesOf_toInt {s : State} {x : Int} (hx : fitsSigned s.cfg.inW x) :
    (s.withFilter (s.stepValuesOf x)).hpState.toInt = (s.stepValuesOf x).hpNew ∧
    (s.withFilter (s.stepValuesOf x)).hpOutQ.toInt = (s.stepValuesOf x).hpOut ∧
    (s.withFilter (s.stepValuesOf x)).lp1State.toInt = (s.stepValuesOf x).lp1New ∧
    (s.withFilter (s.stepValuesOf x)).lp2State.toInt = (s.stepValuesOf x).lp2New := by
  have hhp := fitsSigned_toInt s.hpState
  have hlp1 := fitsSigned_toInt s.lp1State
  have hlp2 := fitsSigned_toInt s.lp2State
  exact ⟨withFilter_hpState_toInt (fitsSigned_hpNew hhp hx), withFilter_hpOutQ_toInt (fitsSigned_hpOut hhp hx),
    toInt_narrow (by omega) (fitsSigned_lp1New hhp hlp1 hx),
    toInt_narrow (by omega) (fitsSigned_lp2New hhp hlp1 hlp2 hx)⟩

/-- What a reader of a written, unmarked state sees on the ports, each by the value of its register. -/
theorem observedOutputs_eq_values {s : State} (hr : s.refused = none) (hs : s.resetSeen = true) :
    observedOutputs s = .ok
      { yHp := s.hpOutQ.toInt, yLp := s.lp2State.toInt, yScaled := floorShr s.lp2State.toInt s.cfg.scaleShift,
        outValid := s.outValidQ } := by
  simp [observedOutputs_of_written hr hs, Outputs.observed, scaledOutput_toInt]

/-- Settles O9: `STEP` writes the values of the cascade, each register holds its value exactly, and so each equation of
the cascade holds between the registers. -/
theorem stepRunsTheThreeStages : Obligations.StepRunsTheThreeStages := by
  refine ⟨fun w b => decode_step_pins b, fun s x hs hx => ?_⟩
  obtain ⟨hhp, hhpOut, hlp1, hlp2⟩ := withFilter_stepValuesOf_toInt (of_decide_eq_true hx)
  refine ⟨_, _, _, _, exec_step_of_wellFormed hs hx, hhp, ?_, ?_, ?_, fun hr => ?_⟩
  · exact hhpOut.trans (congrArg (x - ·) hhp.symm)
  · exact hlp1.trans (congrArg (track _ · _) hhpOut.symm)
  · exact hlp2.trans (congrArg (track _ · _) hlp1.symm)
  · exact observedOutputs_eq_values hr hs

end Sys2Proof.Machine
end

section
/-! The obligation of 60_exceptions.md about elaboration: which parameters are legal, and what `elaborate` answers for
legal and for illegal ones. -/

namespace Sys2Proof

/-! ## Legal parameters -/

/-- None of the four conditions of 60_exceptions.md R82 holds. -/
def Params.Legal (p : Params) : Prop :=
  2 ≤ p.inW ∧ (1 ≤ p.hpCoeff ∧ p.hpCoeff ≤ 256) ∧ (1 ≤ p.lpCoeff ∧ p.lpCoeff ≤ 256) ∧
    (0 ≤ p.scaleShift ∧ p.scaleShift ≤ p.inW)

theorem Params.not_legal_iff {p : Params} : ¬ p.Legal ↔
    p.inW < 2 ∨ ¬ (1 ≤ p.hpCoeff ∧ p.hpCoeff ≤ 256) ∨ ¬ (1 ≤ p.lpCoeff ∧ p.lpCoeff ≤ 256) ∨
      ¬ (0 ≤ p.scaleShift ∧ p.scaleShift ≤ p.inW) := by
  simp only [Params.Legal, not_and_or, not_le]

/-- The parameters of an instance are legal, by the bounds it carries. -/
theorem Config.params_legal (c : Config) : c.params.Legal := by
  obtain ⟨inW, hpCoeff, lpCoeff, scaleShift, hw, hh, hl, hs⟩ := c
  simp only [Params.Legal, Config.params]
  omega

/-- The instance that legal parameters stand for. -/
def Params.Legal.config {p : Params} (h : p.Legal) : Config where
  inW := p.inW.toNat
  hpCoeff := p.hpCoeff.toNat
  lpCoeff := p.lpCoeff.toNat
  scaleShift := p.scaleShift.toNat
  inW_legal := by obtain ⟨hw, -⟩ := h; omega
  hpCoeff_legal := by obtain ⟨-, hh, -⟩ := h; omega
  lpCoeff_legal := by obtain ⟨-, -, hl, -⟩ := h; omega
  scaleShift_legal := by obtain ⟨-, -, -, hs⟩ := h; omega

/-- No legal parameter is negative, so holding it as a natural number loses nothing. -/
@[simp] theorem Params.Legal.config_params {p : Params} (h : p.Legal) : h.config.params = p := by
  obtain ⟨inW, hpCoeff, lpCoeff, scaleShift⟩ := p
  obtain ⟨hw, hh, hl, hs⟩ := h
  simp only [Params.Legal.config, Config.params, Params.mk.injEq]
  dsimp only at hw hh hl hs
  omega

/-- An instance is no more than its parameters. -/
theorem Config.params_injective : Function.Injective Config.params := by
  intro c d h
  cases c
  cases d
  simpa [Config.params] using h

namespace Machine

/-! ## What elaboration answers -/

/-- Illegal parameters are refused. -/
theorem elaborate_of_not_legal {p : Params} (h : ¬ p.Legal) : ∃ r, elaborate p = .error r := by
  unfold elaborate
  split_ifs with hw hh hl hs
  · exact ⟨_, rfl⟩
  · exact absurd ⟨not_lt.1 hw, hh, hl, hs⟩ h
  · exact ⟨_, rfl⟩
  · exact ⟨_, rfl⟩
  · exact ⟨_, rfl⟩

/-- Legal parameters are built as they are: no reason to refuse them holds. -/
theorem elaborate_of_legal {p : Params} (h : p.Legal) : elaborate p = .ok h.config := by
  obtain ⟨hw, hh, hl, hs⟩ := h
  unfold elaborate
  rw [dif_neg (not_lt.2 hw), dif_neg (not_not.2 hh), dif_neg (not_not.2 hl), dif_neg (not_not.2 hs)]
  rfl

/-- Elaboration inverts `Config.params`: it answers the one instance that has the parameters given. -/
theorem elaborate_eq_ok {p : Params} {c : Config} : elaborate p = .ok c ↔ c.params = p := by
  constructor
  · intro h
    by_cases hp : p.Legal
    · rw [← Except.ok.inj ((elaborate_of_legal hp).symm.trans h), hp.config_params]
    · obtain ⟨r, hr⟩ := elaborate_of_not_legal hp
      exact nomatch hr.symm.trans h
  · rintro rfl
    rw [elaborate_of_legal c.params_legal, Config.params_injective c.params_legal.config_params]

theorem elaborate_eq_error {p : Params} : (∃ r, elaborate p = .error r) ↔ ¬ p.Legal := by
  refine ⟨fun ⟨r, hr⟩ hp => ?_, elaborate_of_not_legal⟩
  exact nomatch hr.symm.trans (elaborate_of_legal hp)

/-- Settles O41: elaboration refuses exactly the illegal parameters, and on the legal ones inverts `Config.params`. -/
theorem elaborationRefusesIllegalParameters : Obligations.ElaborationRefusesIllegalParameters :=
  ⟨fun _ => elaborate_eq_error.trans Params.not_legal_iff, fun _ _ => elaborate_eq_ok.1,
    fun _ => elaborate_eq_ok.2 rfl⟩

end Machine
end Sys2Proof
end

section
/-! The obligations of 30_encoding.md: which ports the decoder answers and with what, and how it goes together with the
encoder, the mask and match rows and the lines of a test program. -/

namespace Sys2Proof

/-! ## The decoder, one equation per operation -/

theorem decode_of_nop {w : Nat} {p : Pins w} (hr : p.rst.bit? = some false) (hv : p.inValid.bit? = some false) :
    decode p = .ok .nop := by
  simp [decode, hr, hv]

theorem decode_of_step {w : Nat} {p : Pins w} (hr : p.rst.bit? = some false) (hv : p.inValid.bit? = some true)
    (hx : p.xUndef = 0#w) : decode p = .ok (.step p.xIn.toInt) := by
  simp [decode, hr, hv, hx]

theorem decode_of_reset {w : Nat} {p : Pins w} {v : Bool} (hr : p.rst.bit? = some true)
    (hv : p.inValid.bit? = some v) : decode p = .ok (.reset v) := by
  simp [decode, hr, hv]

/-- `RESET` written on the ports, with anything on `x_in`. -/
theorem decode_reset_pins {w : Nat} (v : Bool) (x u : BitVec w) :
    decode { rst := .high, inValid := Level.ofBit v, xIn := x, xUndef := u } = .ok (.reset v) :=
  decode_of_reset rfl (Level.bit?_ofBit v)

/-- What the decoder gives has an operand that the port can carry (30_encoding.md R51). -/
theorem wellFormed_of_decode {w : Nat} {p : Pins w} {i : Instr} (h : decode p = .ok i) : i.wellFormed w = true := by
  rcases decode_ok_cases h with ⟨-, -, rfl⟩ | ⟨-, -, -, rfl⟩ | ⟨v, -, -, rfl⟩
  · rfl
  · exact decide_eq_true (Machine.fitsSigned_toInt p.xIn)
  · rfl

/-- The port carries an operand in range as it is. -/
theorem toInt_ofInt_of_wellFormed {c : Config} {x : Int} (h : Instr.wellFormed c.inW (.step x) = true) :
    (BitVec.ofInt c.inW x).toInt = x :=
  Machine.centeredSample_of_wellFormed h

/-! ## Decode after encode -/

/-- The encoding of a well-formed operation decodes to it. -/
theorem decode_encode {c : Config} {i : Instr} (h : i.wellFormed c.inW = true) :
    decode (encode c.inW i) = .ok i := by
  cases i with
  | nop => rfl
  | step x => rw [encode, Machine.decode_step_pins, toInt_ofInt_of_wellFormed h]
  | reset v => exact decode_reset_pins v _ _

/-- Settles O3: an operand in range comes back from the port as it was put on it, and each control word selects the
operation that it encodes. -/
theorem decodeOfEncodeIsIdentity : Obligations.DecodeOfEncodeIsIdentity :=
  fun _ _ h => decode_encode h

/-! ## The control word and its row -/

/-- The control word of an operation that decodes hits that operation's row and no other. -/
theorem rows_of_decode {w : Nat} {p : Pins w} {i : Instr} (h : decode p = .ok i) :
    ∃ r v, p.rst.bit? = some r ∧ p.inValid.bit? = some v ∧
      (opRows.filter (fun row => row.hits (BitVec.ofBool r ++ BitVec.ofBool v))).map OpRow.mnemonic = [i.mnemonic] := by
  rcases decode_ok_cases h with ⟨hr, hv, rfl⟩ | ⟨hr, hv, -, rfl⟩ | ⟨v, hr, hv, rfl⟩
  · exact ⟨false, false, hr, hv, rfl⟩
  · exact ⟨false, true, hr, hv, rfl⟩
  · refine ⟨true, v, hr, hv, ?_⟩
    cases v <;> rfl

/-- Settles O1: one equation of the decoder per operation, and the three rows cover the four control words without
overlap. -/
theorem controlWordSelectsOneOperation : Obligations.ControlWordSelectsOneOperation :=
  ⟨fun _ _ => ⟨decode_of_nop, decode_of_step, fun _ => decode_of_reset, fun _ => rows_of_decode⟩, by decide⟩

/-! ## The contract -/

/-- The contract in words: the two control inputs are defined, and on a `STEP` so is `x_in`. -/
theorem Pins.inContract_iff {w : Nat} {p : Pins w} :
    p.inContract = true ↔ ∃ r v, p.rst.bit? = some r ∧ p.inValid.bit? = some v ∧
      (r = false → v = true → p.xUndef = 0#w) := by
  unfold Pins.inContract
  cases p.rst.bit? with
  | none => simp
  | some r =>
    cases p.inValid.bit? with
    | none => simp
    | some v => cases r <;> cases v <;> simp

/-- The contract of 60_exceptions.md R83 is what the decoder accepts. -/
theorem Pins.inContract_iff_decodes {w : Nat} {p : Pins w} : p.inContract = true ↔ ∃ i, decode p = .ok i := by
  rw [Pins.inContract_iff]
  constructor
  · rintro ⟨r, v, hr, hv, hx⟩
    match r, v with
    | false, false => exact ⟨_, decode_of_nop hr hv⟩
    | false, true => exact ⟨_, decode_of_step hr hv (hx rfl rfl)⟩
    | true, v => exact ⟨_, decode_of_reset hr hv⟩
  · rintro ⟨i, h⟩
    rcases decode_ok_cases h with ⟨hr, hv, -⟩ | ⟨hr, hv, hx, -⟩ | ⟨v, hr, hv, -⟩
    · exact ⟨_, _, hr, hv, nofun⟩
    · exact ⟨_, _, hr, hv, fun _ _ => hx⟩
    · exact ⟨_, _, hr, hv, nofun⟩

theorem decode_of_not_inContract {w : Nat} {p : Pins w} (h : p.inContract = false) : ∃ r, decode p = .error r := by
  cases hd : decode p with
  | error r => exact ⟨r, rfl⟩
  | ok i => exact absurd (Pins.inContract_iff_decodes.2 ⟨i, hd⟩) (by simp [h])

/-- Settles O2: the contract names the ports that one of the decoder's three equations covers. -/
theorem decodesExactlyWithinContract : Obligations.DecodesExactlyWithinContract :=
  fun _ _ => ⟨Pins.inContract_iff_decodes.1, decode_of_not_inContract⟩

/-! ## Encode after decode -/

theorem encode_ctl?_of_decode {w : Nat} {p : Pins w} {i : Instr} (h : decode p = .ok i) :
    (encode w i).ctl? = p.ctl? := by
  rcases decode_ok_cases h with ⟨hr, hv, rfl⟩ | ⟨hr, hv, -, rfl⟩ | ⟨v, hr, hv, rfl⟩ <;>
    simp [Pins.ctl?, encode, hr, hv] <;> rfl

/-- On a `STEP` the ports hold nothing but what the operation says. -/
theorem encode_step_of_decode {w : Nat} {p : Pins w} {x : Int} (h : decode p = .ok (.step x)) :
    encode w (.step x) = p := by
  rcases decode_ok_cases h with ⟨-, -, hi⟩ | ⟨hr, hv, hx, hi⟩ | ⟨v, -, -, hi⟩
  · cases hi
  · cases hi
    obtain ⟨rst, inValid, xIn, xUndef⟩ := p
    obtain rfl := Level.eq_ofBit hr
    obtain rfl := Level.eq_ofBit hv
    obtain rfl := hx
    simp [encode, Level.ofBit]
  · cases hi

/-- Settles O4: each way the decoder answers fixes both control inputs, and on a `STEP` the whole of `x_in`. -/
theorem encodeOfDecodedKeepsTheWord : Obligations.EncodeOfDecodedKeepsTheWord := by
  rintro c p i h
  refine ⟨wellFormed_of_decode h, encode_ctl?_of_decode h, ?_⟩
  rintro x rfl
  exact encode_step_of_decode h

/-! ## Words and lines written out -/

/-- Settles O5: closed words, each run through the decoder. -/
theorem writtenOutWordsDecode : Obligations.WrittenOutWordsDecode :=
  ⟨rfl, rfl, rfl, rfl, rfl, rfl, by decide⟩

/-- Settles O6: a line with an operand in range puts it on `x_in` as it is. -/
theorem notationStandsForItsPorts : Obligations.NotationStandsForItsPorts := by
  intro c x hx
  have hport := toInt_ofInt_of_wellFormed hx
  exact ⟨rfl, decode_encode hx, decode_reset_pins false _ _, decode_reset_pins true _ _, hport, hport⟩

/-! ## Which operation the ports select -/

theorem Pins.isNop_iff_decode {w : Nat} {p : Pins w} : p.isNop = true ↔ decode p = .ok .nop := by
  constructor
  · intro h
    obtain ⟨hr, hv⟩ : p.rst.bit? = some false ∧ p.inValid.bit? = some false := by simpa [Pins.isNop] using h
    exact decode_of_nop hr hv
  · intro h
    rcases decode_ok_cases h with ⟨hr, hv, -⟩ | ⟨-, -, -, hi⟩ | ⟨v, -, -, hi⟩
    · simp [Pins.isNop, hr, hv]
    · cases hi
    · cases hi

theorem Pins.isReset_iff_decode {w : Nat} {p : Pins w} : p.isReset = true ↔ ∃ v, decode p = .ok (.reset v) := by
  constructor
  · intro h
    obtain ⟨hr, hv⟩ : p.rst.bit? = some true ∧ p.inValid.bit?.isSome = true := by simpa [Pins.isReset] using h
    obtain ⟨v, hv⟩ := Option.isSome_iff_exists.1 hv
    exact ⟨v, decode_of_reset hr hv⟩
  · rintro ⟨v, h⟩
    rcases decode_ok_cases h with ⟨-, -, hi⟩ | ⟨-, -, -, hi⟩ | ⟨v', hr, hv, -⟩
    · cases hi
    · cases hi
    · simp [Pins.isReset, hr, hv]

/-- A `STEP` edge is one that sets `out_valid_q` (10_state.md R26). -/
theorem Pins.isStep_eq_outValidAfter {w : Nat} {p : Pins w} {i : Instr} (h : decode p = .ok i) :
    p.isStep = Machine.outValidAfter i := by
  rcases decode_ok_cases h with ⟨hr, hv, rfl⟩ | ⟨hr, hv, -, rfl⟩ | ⟨v, hr, hv, rfl⟩ <;>
    simp [Pins.isStep, Machine.outValidAfter, hr, hv]

end Sys2Proof
end

section
/-! The obligations of 40_operations.md about the laws of the stage function and the widths of the datapath. -/

namespace Sys2Proof.Machine

/-! ## The laws of the stage function (40_operations.md R64) -/

theorem track_self (s : Int) (C : Nat) : track s s C = s := by simp [track_eq]

theorem track_coeff_256 (s u : Int) : track s u 256 = u := by
  rw [track_eq, Nat.cast_ofNat, Int.mul_ediv_cancel _ (by decide)]
  omega

theorem track_from_below {s u : Int} {C : Nat} (hC : C ≤ 256) (h : s ≤ u) :
    s ≤ track s u C ∧ track s u C ≤ u := by
  simpa [h] using track_between s u hC

theorem track_from_above {s u : Int} {C : Nat} (hC1 : 1 ≤ C) (hC : C ≤ 256) (h : u < s) :
    u ≤ track s u C ∧ track s u C ≤ s - 1 := by
  have low : u ≤ track s u C := by simpa [h.le] using (track_between s u hC).1
  have neg : (u - s) * C < 0 := mul_neg_of_neg_of_pos (by omega) (by exact_mod_cast hC1)
  refine ⟨low, ?_⟩
  rw [track_eq]
  omega

/-- A stage stands still exactly when its input is above it by less than one step of the floor. -/
theorem track_eq_self_iff {s u : Int} {C : Nat} (hC1 : 1 ≤ C) (hC : C ≤ 256) :
    track s u C = s ↔ 0 ≤ u - s ∧ u - s ≤ ((255 / C : Nat) : Int) := by
  have hpos : (0 : Int) < C := by exact_mod_cast hC1
  have hband : u - s ≤ ((255 / C : Nat) : Int) ↔ (u - s) * C ≤ 255 := by
    rw [Int.natCast_div, Int.le_ediv_iff_mul_le hpos, Nat.cast_ofNat]
  rw [hband]
  constructor
  · intro h
    have below : 0 ≤ u - s := by
      by_contra! hneg
      have := (track_from_above hC1 hC (show u < s by omega)).2
      omega
    rw [track_eq] at h
    exact ⟨below, by omega⟩
  · rintro ⟨below, band⟩
    have : 0 ≤ (u - s) * C := mul_nonneg below hpos.le
    rw [track_eq]
    omega

/-- A stage stays in every interval that holds its state and its input. -/
theorem track_mem_interval {s u a b : Int} {C : Nat} (hC : C ≤ 256) (has : a ≤ s) (hsb : s ≤ b) (hau : a ≤ u)
    (hub : u ≤ b) : a ≤ track s u C ∧ track s u C ≤ b := by
  obtain ⟨low, high⟩ := track_between s u hC
  exact ⟨(le_min has hau).trans low, high.trans (max_le hsb hub)⟩

/-- `STEP` writes the cascade's exact integers: what `stepRunsTheThreeStages` says of the registers. -/
theorem exec_step_cascade {s : State} {x : Int} (hs : s.resetSeen = true)
    (hx : Instr.wellFormed s.cfg.inW (.step x) = true) :
    ∃ (hp : BitVec s.cfg.inW) (hpOut lp1 lp2 : BitVec (s.cfg.inW + 1)),
      exec (.step x) s = .next { s with
        hpState := hp, hpOutQ := hpOut, lp1State := lp1, lp2State := lp2, outValidQ := true } ∧
      hp.toInt = track s.hpState.toInt x s.cfg.hpCoeff ∧
      hpOut.toInt = x - hp.toInt ∧
      lp1.toInt = track s.lp1State.toInt hpOut.toInt s.cfg.lpCoeff ∧
      lp2.toInt = track s.lp2State.toInt lp1.toInt s.cfg.lpCoeff := by
  obtain ⟨hp, hpOut, lp1, lp2, hexec, hhp, hhpOut, hlp1, hlp2, -⟩ := stepRunsTheThreeStages.2 s x hs hx
  exact ⟨hp, hpOut, lp1, lp2, hexec, hhp, hhpOut, hlp1, hlp2⟩

/-- Settles O17: the laws of the stage function, and the cascade read with a coefficient of 256, where a stage takes
its input. -/
theorem trackLaws : Obligations.TrackLaws := by
  refine ⟨fun s u C hC1 hC => ⟨?_, ?_, fun h => track_from_below hC h.le, track_from_above hC1 hC,
    track_eq_self_iff hC1 hC⟩, fun s x hs hx => ?_⟩
  · rintro rfl
    exact track_self u C
  · rintro rfl
    exact track_coeff_256 s u
  · obtain ⟨hp, hpOut, lp1, lp2, hexec, hhp, hhpOut, hlp1, hlp2⟩ := exec_step_cascade hs hx
    refine ⟨hp, hpOut, lp1, lp2, hexec, fun h256 => ?_, fun h256 => ?_⟩
    · rw [h256, track_coeff_256] at hhp
      have hzero : hpOut.toInt = 0 := by omega
      exact ⟨hhp, BitVec.eq_of_toInt_eq (by simp [hzero]), by rw [hlp1, hzero]⟩
    · rw [h256, track_coeff_256] at hlp1 hlp2
      exact ⟨BitVec.eq_of_toInt_eq hlp1, BitVec.eq_of_toInt_eq (hlp2.trans hlp1)⟩

/-! ## The corner cases of a `STEP` (40_operations.md R69) -/

/-- At state 0 a small input above does not move the stage, and one as far below moves it by 1. -/
theorem track_zero_of_mul_le {x : Int} {C : Nat} (hpos : 0 < x * C) (h : x * C ≤ 255) :
    track 0 x C = 0 ∧ track 0 (-x) C = -1 := by
  have hneg : -x * C = -(x * C) := neg_mul x C
  simp only [track_eq, sub_zero, hneg]
  omega

theorem wellFormed_neg_step {w : Nat} {x : Int} (hpos : 0 < x) (hx : Instr.wellFormed w (.step x) = true) :
    Instr.wellFormed w (.step (-x)) = true := by
  obtain ⟨low, high⟩ : fitsSigned w x := of_decide_eq_true hx
  exact decide_eq_true ⟨by omega, by omega⟩

/-- Settles O21: the stage function at its own state, and just above and below zero, where the floor tells the two
sides apart. -/
theorem stepCornerCases : Obligations.StepCornerCases := by
  constructor
  · intro s hs
    have hx : Instr.wellFormed s.cfg.inW (.step s.hpState.toInt) = true := decide_eq_true (fitsSigned_toInt _)
    obtain ⟨hp, hpOut, lp1, lp2, hexec, hhp, hhpOut, -, -⟩ := exec_step_cascade hs hx
    rw [track_self] at hhp
    have hzero : hpOut = 0#_ := BitVec.eq_of_toInt_eq (by simp [hhpOut, hhp])
    refine ⟨lp1, lp2, ?_⟩
    rw [hexec, BitVec.eq_of_toInt_eq hhp, hzero]
  · intro s x hs h0 hpos hsmall hx
    have hprod : 0 < x * s.cfg.hpCoeff := mul_pos hpos (by exact_mod_cast s.cfg.hpCoeff_legal.1)
    obtain ⟨up, down⟩ := track_zero_of_mul_le hprod hsmall
    obtain ⟨hp, hpOut, lp1, lp2, hexec, hhp, hhpOut, -, -⟩ := exec_step_cascade hs hx
    obtain ⟨hp', hpOut', lp1', lp2', hexec', hhp', hhpOut', -, -⟩ := exec_step_cascade hs (wellFormed_neg_step hpos hx)
    rw [h0, BitVec.toInt_zero] at hhp hhp'
    refine ⟨_, _, hexec, hexec', hhp.trans up, ?_, hhp'.trans down, ?_⟩
    · rw [hhpOut, hhp, up, sub_zero]
    · rw [hhpOut', hhp', down]
      omega

/-! ## The ranges of one `STEP` (10_state.md R32, 40_operations.md R70) -/

theorem inSignalRange_zero {w : Nat} (hw : 1 ≤ w) : inSignalRange w 0 := by
  have := Nat.pow_le_pow_right (n := 2) (by decide) hw
  constructor <;> omega

theorem inSignalRange_track {w : Nat} {s u : Int} {C : Nat} (hC : C ≤ 256) (hs : inSignalRange w s)
    (hu : inSignalRange w u) : inSignalRange w (track s u C) :=
  track_mem_interval hC hs.1 hs.2 hu.1 hu.2

/-- The signal range is within the register's width. -/
theorem fitsSigned_of_inSignalRange {w : Nat} {v : Int} (h : inSignalRange w v) : fitsSigned (w + 1) v := by
  obtain ⟨low, high⟩ := h
  constructor <;> simp only [Nat.add_sub_cancel] <;> omega

/-- From at or below the sample the tracker rises no further than the sample, so nothing is high-passed below zero. -/
theorem stepValues_hp_from_below {c : Config} {hp lp1 lp2 x : Int} (h : hp ≤ x) :
    hp ≤ (stepValues c hp lp1 lp2 x).hpNew ∧ (stepValues c hp lp1 lp2 x).hpNew ≤ x ∧
    0 ≤ (stepValues c hp lp1 lp2 x).hpOut ∧ (stepValues c hp lp1 lp2 x).hpOut ≤ x - hp := by
  obtain ⟨low, high⟩ := track_from_below c.hpCoeff_legal.2 h
  rw [stepValues_hpOut, stepValues_hpNew]
  omega

/-- From above the sample the tracker falls by at least 1: the bound that keeps the signal range narrower than the
register. -/
theorem stepValues_hp_from_above {c : Config} {hp lp1 lp2 x : Int} (h : x < hp) :
    x ≤ (stepValues c hp lp1 lp2 x).hpNew ∧ (stepValues c hp lp1 lp2 x).hpNew ≤ hp - 1 ∧
    x - hp + 1 ≤ (stepValues c hp lp1 lp2 x).hpOut ∧ (stepValues c hp lp1 lp2 x).hpOut ≤ 0 := by
  obtain ⟨low, high⟩ := track_from_above c.hpCoeff_legal.1 c.hpCoeff_legal.2 h
  rw [stepValues_hpOut, stepValues_hpNew]
  omega

theorem two_mul_two_pow_pred {w : Nat} (hw : 1 ≤ w) : 2 * 2 ^ (w - 1) = 2 ^ w := by
  rw [← pow_succ', Nat.sub_add_cancel hw]

theorem inSignalRange_hpOut {c : Config} {hp lp1 lp2 x : Int} (hhp : fitsSigned c.inW hp) (hx : fitsSigned c.inW x) :
    inSignalRange c.inW (stepValues c hp lp1 lp2 x).hpOut := by
  have hw := two_mul_two_pow_pred (Nat.le_of_lt c.inW_legal)
  have hpos := Nat.one_le_two_pow (n := c.inW - 1)
  obtain ⟨hp1, hp2⟩ := hhp
  obtain ⟨x1, x2⟩ := hx
  rcases le_or_gt hp x with h | h
  · obtain ⟨-, -, low, high⟩ := stepValues_hp_from_below (c := c) (lp1 := lp1) (lp2 := lp2) h
    constructor <;> omega
  · obtain ⟨-, -, low, high⟩ := stepValues_hp_from_above (c := c) (lp1 := lp1) (lp2 := lp2) h
    constructor <;> omega

theorem inSignalRange_lp1New {c : Config} {hp lp1 lp2 x : Int} (hhp : fitsSigned c.inW hp) (hx : fitsSigned c.inW x)
    (hlp1 : inSignalRange c.inW lp1) : inSignalRange c.inW (stepValues c hp lp1 lp2 x).lp1New :=
  inSignalRange_track c.lpCoeff_legal.2 hlp1 (inSignalRange_hpOut (lp1 := lp1) (lp2 := lp2) hhp hx)

theorem inSignalRange_lp2New {c : Config} {hp lp1 lp2 x : Int} (hhp : fitsSigned c.inW hp) (hx : fitsSigned c.inW x)
    (hlp1 : inSignalRange c.inW lp1) (hlp2 : inSignalRange c.inW lp2) :
    inSignalRange c.inW (stepValues c hp lp1 lp2 x).lp2New :=
  inSignalRange_track c.lpCoeff_legal.2 hlp2 (inSignalRange_lp1New (lp2 := lp2) hhp hx hlp1)

/-! ## The widths of the intermediates (00_scope.md R6) -/

theorem fitsSigned_of_natAbs_lt {w n : Nat} {d : Int} (h : d.natAbs < 2 ^ n) (hn : n + 1 ≤ w) : fitsSigned w d := by
  have := Nat.pow_le_pow_right (n := 2) (by decide) (show n ≤ w - 1 by omega)
  constructor <;> omega

/-- Two values of `w` bits are less than `2^w` apart. -/
theorem natAbs_sub_lt {w : Nat} {a b : Int} (hw : 1 ≤ w) (ha : fitsSigned w a) (hb : fitsSigned w b) :
    (a - b).natAbs < 2 ^ w := by
  have := two_mul_two_pow_pred hw
  obtain ⟨a1, a2⟩ := ha
  obtain ⟨b1, b2⟩ := hb
  omega

/-- A coefficient adds 8 bits to the magnitude. -/
theorem natAbs_mul_coeff_lt {n : Nat} {d : Int} {C : Nat} (hC : C ≤ 256) (h : d.natAbs < 2 ^ n) :
    (d * (C : Int)).natAbs < 2 ^ (n + 8) := by
  rw [Int.natAbs_mul, Int.natAbs_natCast, pow_add]
  calc d.natAbs * C ≤ d.natAbs * 2 ^ 8 := Nat.mul_le_mul_left _ hC
    _ < 2 ^ n * 2 ^ 8 := Nat.mul_lt_mul_of_pos_right h (by decide)

theorem fitsSigned_succ {w : Nat} {v : Int} (h : fitsSigned w v) : fitsSigned (w + 1) v := by
  have := Nat.pow_le_pow_right (n := 2) (by decide) (show w - 1 ≤ w + 1 - 1 by omega)
  obtain ⟨low, high⟩ := h
  constructor <;> omega

/-- Settles O18: each stage stays in the hull of its state and input, which bounds every register, and so every
difference and product. -/
theorem noOverflowFacts : Obligations.NoOverflowFacts := by
  refine ⟨fun s u a b C _ hC has hsb hau hub => ?_, fun c hp lp1 lp2 x hhp hx hlp1 hlp2 => ?_, fun c => ?_⟩
  · obtain ⟨low, high⟩ := track_between s u hC
    exact ⟨low, high, track_mem_interval hC has hsb hau hub⟩
  · have rOut := inSignalRange_hpOut (lp1 := lp1) (lp2 := lp2) hhp hx
    have rLp1 := inSignalRange_lp1New (lp2 := lp2) hhp hx hlp1
    have rLp2 := inSignalRange_lp2New hhp hx hlp1 hlp2
    refine ⟨fitsSigned_hpNew hhp hx, stepValues_hp_from_below, fun h => ?_, rOut, rLp1, rLp2,
      fitsSigned_of_inSignalRange rOut, fitsSigned_of_inSignalRange rLp1, fitsSigned_of_inSignalRange rLp2, ?_⟩
    · obtain ⟨low, high, out, -⟩ := stepValues_hp_from_above (c := c) (lp1 := lp1) (lp2 := lp2) h
      exact ⟨low, high, out⟩
    · intro d hd
      have diff : d.natAbs < 2 ^ (c.inW + 1) := by
        have apart {a b : Int} := natAbs_sub_lt (w := c.inW + 1) (a := a) (b := b) (by omega)
        simp only [List.mem_cons, List.not_mem_nil, or_false] at hd
        rcases hd with rfl | rfl | rfl
        · exact apart (fitsSigned_succ hx) (fitsSigned_succ hhp)
        · exact apart (fitsSigned_of_inSignalRange rOut) (fitsSigned_of_inSignalRange hlp1)
        · exact apart (fitsSigned_of_inSignalRange rLp1) (fitsSigned_of_inSignalRange hlp2)
      refine ⟨diff, fitsSigned_of_natAbs_lt diff le_rfl, fun C hmem => ?_⟩
      have hC : C ≤ 256 := by
        simp only [List.mem_cons, List.not_mem_nil, or_false] at hmem
        rcases hmem with rfl | rfl
        · exact c.hpCoeff_legal.2
        · exact c.lpCoeff_legal.2
      have prod := natAbs_mul_coeff_lt hC diff
      exact ⟨prod, fitsSigned_of_natAbs_lt prod (by simp)⟩
  · exact ⟨fitsSigned_zero _, inSignalRange_zero (Nat.le_of_lt c.inW_legal)⟩

/-- Settles O19: the difference fits `DIFF_W` and the product `PROD_W`, so neither intermediate cuts anything off. -/
theorem datapathWidthsSuffice : Obligations.DatapathWidthsSuffice := by
  intro c s u C dW pW hs hu _ hC (hd : c.inW + 2 ≤ dW) (hp : c.inW + 11 ≤ pW)
  have diff := natAbs_sub_lt (Nat.le_add_left 1 c.inW) hu hs
  have prod := natAbs_mul_coeff_lt hC diff
  rw [trackAtWidths, toInt_narrow (by omega) (fitsSigned_of_natAbs_lt diff (by omega)),
    toInt_narrow (by omega) (fitsSigned_of_natAbs_lt prod (by omega)), track]

end Sys2Proof.Machine
end

section
/-! What one edge does to the five registers, by their signed values; and the obligations about one edge, one act of the
host and one `STEP` that follow. -/

namespace Sys2Proof.Machine

/-! ## The filter registers as values -/

/-- The signed values of the four filter registers. -/
def State.values (s : State) : StepValues :=
  { hpNew := s.hpState.toInt, hpOut := s.hpOutQ.toInt, lp1New := s.lp1State.toInt, lp2New := s.lp2State.toInt }

/-- The values after a `RESET` (10_state.md R30). -/
def StepValues.zero : StepValues := { hpNew := 0, hpOut := 0, lp1New := 0, lp2New := 0 }

/-- The values after an operation, from the values before it (40_operations.md R60, R61; 70_reset_and_hazards.md
R90). -/
def StepValues.next (c : Config) (v : StepValues) : Instr → StepValues
  | .nop => v
  | .step x => stepValues c v.hpNew v.lp1New v.lp2New x
  | .reset _ => .zero

/-- Each value fits its register (10_state.md R20). -/
def StepValues.Fits (w : Nat) (v : StepValues) : Prop :=
  fitsSigned w v.hpNew ∧ fitsSigned (w + 1) v.hpOut ∧ fitsSigned (w + 1) v.lp1New ∧ fitsSigned (w + 1) v.lp2New

/-- The ranges of 10_state.md R32, of values. -/
def StepValues.InRange (w : Nat) (v : StepValues) : Prop :=
  fitsSigned w v.hpNew ∧ inSignalRange w v.hpOut ∧ inSignalRange w v.lp1New ∧ inSignalRange w v.lp2New

theorem State.inRange_iff (s : State) : s.InRange ↔ s.values.InRange s.cfg.inW := Iff.rfl

theorem State.values_fit (s : State) : s.values.Fits s.cfg.inW :=
  ⟨fitsSigned_toInt _, fitsSigned_toInt _, fitsSigned_toInt _, fitsSigned_toInt _⟩

@[simp] theorem State.withFilter_values (s : State) : s.withFilter s.values = s := by
  simp [State.withFilter, State.values]

/-- Values that fit stand in the registers as they are. -/
theorem State.values_withFilter {s : State} {v : StepValues} (h : v.Fits s.cfg.inW) : (s.withFilter v).values = v := by
  obtain ⟨hhp, hhpOut, hlp1, hlp2⟩ := h
  cases v
  simp only [State.values, StepValues.mk.injEq]
  exact ⟨toInt_narrow (Nat.le_of_lt s.cfg.inW_legal) hhp, toInt_narrow (by omega) hhpOut, toInt_narrow (by omega) hlp1,
    toInt_narrow (by omega) hlp2⟩

theorem StepValues.zero_fits (w : Nat) : StepValues.zero.Fits w :=
  ⟨fitsSigned_zero _, fitsSigned_zero _, fitsSigned_zero _, fitsSigned_zero _⟩

theorem StepValues.next_fits {c : Config} {v : StepValues} {i : Instr} (hi : i.wellFormed c.inW = true)
    (h : v.Fits c.inW) : (v.next c i).Fits c.inW := by
  obtain ⟨hhp, hhpOut, hlp1, hlp2⟩ := h
  cases i with
  | nop => exact ⟨hhp, hhpOut, hlp1, hlp2⟩
  | step x =>
    have hx : fitsSigned c.inW x := of_decide_eq_true hi
    exact ⟨fitsSigned_hpNew hhp hx, fitsSigned_hpOut hhp hx, fitsSigned_lp1New hhp hlp1 hx,
      fitsSigned_lp2New hhp hlp1 hlp2 hx⟩
  | reset _ => exact StepValues.zero_fits c.inW

theorem StepValues.zero_inRange (c : Config) : StepValues.zero.InRange c.inW :=
  have hzero := inSignalRange_zero (Nat.le_of_lt c.inW_legal)
  ⟨fitsSigned_zero _, hzero, hzero, hzero⟩

/-- Every operation but a `RESET` needs the ranges before it to keep them. -/
theorem StepValues.next_inRange {c : Config} {v : StepValues} {i : Instr} (hi : i.wellFormed c.inW = true)
    (h : (∃ r, i = .reset r) ∨ v.InRange c.inW) : (v.next c i).InRange c.inW := by
  cases i with
  | nop => exact h.resolve_left nofun
  | step x =>
    obtain ⟨hhp, -, hlp1, hlp2⟩ : v.InRange c.inW := h.resolve_left nofun
    have hx : fitsSigned c.inW x := of_decide_eq_true hi
    exact ⟨fitsSigned_hpNew hhp hx, inSignalRange_hpOut hhp hx, inSignalRange_lp1New hhp hx hlp1,
      inSignalRange_lp2New hhp hx hlp1 hlp2⟩
  | reset _ => exact StepValues.zero_inRange c

/-! ## The state with given values

A run from `s` passes through states of this form only, all with the frame of `s`: its parameters and its mark. -/

/-- The state with `v` in the filter registers and `valid` in the flag, written, with the edges `rest` to come. -/
def State.withValues (s : State) (v : StepValues) (valid : Bool) (rest : List (Pins s.cfg.inW)) : State :=
  (((s.withEdges rest).withFilter v).withOutValid valid).withResetSeen

section
variable (s : State) (v : StepValues) (valid : Bool) (rest : List (Pins s.cfg.inW))

@[simp] theorem State.withValues_cfg : (s.withValues v valid rest).cfg = s.cfg := rfl
@[simp] theorem State.withValues_edges : (s.withValues v valid rest).edges = rest := rfl
@[simp] theorem State.withValues_outValidQ : (s.withValues v valid rest).outValidQ = valid := rfl
@[simp] theorem State.withValues_resetSeen : (s.withValues v valid rest).resetSeen = true := rfl
@[simp] theorem State.withValues_refused : (s.withValues v valid rest).refused = s.refused := rfl

end

theorem State.withResetSeen_of_written {s : State} (hs : s.resetSeen = true) : s.withResetSeen = s := by
  cases s
  cases hs
  rfl

/-- Writing the values back that stand there changes the flag and the edges alone. -/
theorem State.withValues_self {s : State} (valid : Bool) (rest : List (Pins s.cfg.inW)) (hs : s.resetSeen = true) :
    s.withValues s.values valid rest = { s with edges := rest, outValidQ := valid } := by
  have hvalues : (s.withEdges rest).withFilter s.values = s.withEdges rest :=
    State.withFilter_values (s.withEdges rest)
  rw [State.withValues, hvalues]
  exact State.withResetSeen_of_written hs

/-- A written state is its values, its flag and its edges in its own frame. -/
theorem State.eq_withValues {s : State} (hs : s.resetSeen = true) :
    s = s.withValues s.values s.outValidQ s.edges :=
  (State.withValues_self s.outValidQ s.edges hs).symm

/-- The registers hold values that fit as they are (40_operations.md R70). -/
theorem State.values_withValues {s : State} {v : StepValues} {valid : Bool} {rest : List (Pins s.cfg.inW)}
    (hv : v.Fits s.cfg.inW) : (s.withValues v valid rest).values = v :=
  State.values_withFilter (s := s.withEdges rest) hv

/-- The operations that a step can run: all once the registers are written, before that `RESET` alone
(60_exceptions.md R83). -/
def State.accepts (s : State) (i : Instr) : Prop := s.resetSeen = true ∨ ∃ v, i = .reset v

/-- An accepted operation answers with its values in the registers. -/
theorem exec_withEdges {s : State} {i : Instr} {rest : List (Pins s.cfg.inW)} (ha : s.accepts i)
    (hi : i.wellFormed s.cfg.inW = true) :
    exec i (s.withEdges rest) = .next (s.withValues (s.values.next s.cfg i) (outValidAfter i) rest) := by
  have hreset (v : Bool) : exec (.reset v) (s.withEdges rest) = .next (s.withValues .zero false rest) := rfl
  rcases ha with hs | ⟨v, rfl⟩
  · have hs' : (s.withEdges rest).resetSeen = true := hs
    cases i with
    | nop =>
      rw [exec_nop, whenWritten_written hs']
      exact congrArg _ (State.withValues_self false rest hs).symm
    | step x =>
      rw [exec_step_of_wellFormed hs' hi]
      exact congrArg _ (State.withResetSeen_of_written
        (s := ((s.withEdges rest).withFilter (s.stepValuesOf x)).withOutValid true) hs).symm
    | reset v => exact hreset v
  · exact hreset v

/-- Before the first `RESET` every other operation is refused. -/
theorem exec_of_not_accepts {s : State} {i : Instr} (ha : ¬ s.accepts i) : exec i s = .refused .beforeFirstReset := by
  obtain ⟨hs, hi⟩ := not_or.1 ha
  have hs : s.resetSeen = false := by simpa using hs
  cases i with
  | nop => rw [exec_nop, whenWritten_unwritten hs]
  | step x => rw [exec_step, whenWritten_unwritten hs]
  | reset v => exact absurd ⟨v, rfl⟩ hi

/-! ## One step -/

section
variable {s : State} {p : Pins s.cfg.inW} {rest : List (Pins s.cfg.inW)} {i : Instr}

/-- The step at an edge whose ports select an operation is that operation, with the edge taken. -/
theorem step_of_decode (hr : s.refused = none) (he : s.edges = p :: rest) (hd : decode p = .ok i) :
    step s = exec i (s.withEdges rest) := by
  simp only [step, fetch_eq_ok.2 ⟨hr, p, rest, he, hd, rfl⟩]

/-- The step at an edge that runs an accepted operation puts the operation's values in the registers. -/
theorem step_of_accepted (hr : s.refused = none) (he : s.edges = p :: rest) (hd : decode p = .ok i)
    (ha : s.accepts i) : step s = .next (s.withValues (s.values.next s.cfg i) (outValidAfter i) rest) :=
  (step_of_decode hr he hd).trans (exec_withEdges ha (wellFormed_of_decode hd))

theorem step_of_undefined {r : DecodeError} (hr : s.refused = none) (he : s.edges = p :: rest)
    (hd : decode p = .error r) : step s = .refused (.undefinedLevel r) := by
  simp [step, fetch, hr, he, hd]

end

theorem step_of_no_edges {s : State} (hr : s.refused = none) (he : s.edges = []) : step s = .refused .runEnded := by
  simp [step, fetch, hr, he]

/-- Every next state a step can give, as values: those of an accepted operation. -/
theorem step_next_withValues {s t : State} (h : step s = .next t) :
    ∃ p rest i, s.edges = p :: rest ∧ decode p = .ok i ∧ s.accepts i ∧
      t = s.withValues (s.values.next s.cfg i) (outValidAfter i) rest := by
  obtain ⟨hr, p, rest, i, he, hd, hx⟩ := step_next_cases h
  by_cases ha : s.accepts i
  · exact ⟨p, rest, i, he, hd, ha, Host.Outcome.next.inj (h.symm.trans (step_of_accepted hr he hd ha))⟩
  · rw [exec_of_not_accepts (s := s.withEdges rest) ha] at hx
    cases hx

/-- Settles O30: an accepted operation writes values in range, `RESET` from any values, the others from values in
range. -/
theorem everyStepKeepsTheRanges : Obligations.EveryStepKeepsTheRanges := by
  intro s t hrange h
  obtain ⟨p, rest, i, -, hd, ha, rfl⟩ := step_next_withValues h
  have hi := wellFormed_of_decode hd
  rw [State.inRange_iff, State.values_withValues (StepValues.next_fits hi s.values_fit)]
  exact ⟨rfl, StepValues.next_inRange hi (ha.symm.imp_right hrange)⟩

/-- Settles O31: zero is in every range. -/
theorem resetStateIsInRange : Obligations.ResetStateIsInRange :=
  ⟨rfl, StepValues.zero_inRange Config.reference⟩

/-- Settles O29: the frame of a step holds the parameters. -/
theorem parametersNeverChange : Obligations.ParametersNeverChange := by
  intro s t h
  obtain ⟨p, rest, i, -, -, -, rfl⟩ := step_next_withValues h
  rfl

/-- Settles O7: a presented word stands at the next edge, so both clauses are the step at an edge that decodes. -/
theorem stepRunsTheDecodedOperation : Obligations.StepRunsTheDecodedOperation := by
  refine ⟨fun s p rest i => step_of_decode, fun s nbits w i hr hd => ?_⟩
  exact step_of_decode (s := s.withFetchWord nbits w) hr (presentWord_edges s _) hd

/-- Settles O10: the decoder's equation for `RESET`, and the zeros of R90, which do not depend on the state. -/
theorem resetClearsEveryRegister : Obligations.ResetClearsEveryRegister :=
  ⟨fun _ => decode_reset_pins, fun s v v' => ⟨exec_reset v s, exec_reset v' _⟩⟩

/-- Settles O40: the instances are mapped over, each by itself. -/
theorem instancesAreIndependent : Obligations.InstancesAreIndependent := by
  intro ms k
  rw [stepInstances, List.getElem?_map]

/-! ## Refusals -/

theorem run_succ_of_refused {s : State} {r : Refusal} (h : step s = .refused r) (k : Nat) :
    Host.Core.run Sys2Proof.core (k + 1) s = .refused r := by
  have h' : Sys2Proof.core.step s = .refused r := h
  simp [Host.Core.run, h']

/-- A refused edge of 60_exceptions.md R83 ends every run and leaves the mark alone behind. -/
theorem edge_of_marking_refusal {s : State} {r : Refusal} (h : step s = .refused r) (hm : r.marksTheRun = true) :
    (∀ k, Host.Core.run Sys2Proof.core (k + 1) s = .refused r) ∧
      hostAct s .edge = (.error r, { s with refused := some r }) := by
  refine ⟨run_succ_of_refused h, ?_⟩
  rw [hostAct_edge_of_refused h, if_pos hm]
  rfl

theorem readOutputs_unwritten {s : State} (hr : s.refused = none) (hs : s.resetSeen = false) :
    readOutputs s = .error .readBeforeFirstReset := by
  simp [readOutputs, hr, hs]

theorem hostAct_read_of_error {s : State} {r : Refusal} (h : observedOutputs s = .error r) :
    hostAct s .read = (.error r, s.withRefused r) := by
  simp [hostAct, readPorts, h]

theorem hostActs_marked {s : State} {r : Refusal} (h : s.refused = some r) (acts : List HostAct) :
    hostActs s acts = (acts.map (fun _ => .error r), s) := by
  induction acts with
  | nil => rfl
  | cons a acts ih => simp [hostAct_marked h, ih]

/-- Settles O13: each of the three refusals is a marking one, and a marked state answers its mark to everything. -/
theorem refusalsOutsideTheContract : Obligations.RefusalsOutsideTheContract := by
  refine ⟨fun s p rest hr he hp => ?_, fun s p rest hr he hp hreset hs => ?_, fun s hr hs => ?_, fun s r h => ?_⟩
  · obtain ⟨r, hd⟩ := decode_of_not_inContract hp
    exact ⟨r, edge_of_marking_refusal (step_of_undefined hr he hd) rfl⟩
  · obtain ⟨i, hd⟩ := Pins.inContract_iff_decodes.1 hp
    have ha : ¬ (s.withEdges rest).accepts i := by
      rintro (hs' | ⟨v, rfl⟩)
      · exact absurd hs' (by simp [hs])
      · exact absurd (Pins.isReset_iff_decode.2 ⟨v, hd⟩) (by simp [hreset])
    exact edge_of_marking_refusal ((step_of_decode hr he hd).trans (exec_of_not_accepts ha)) rfl
  · have hread := readOutputs_unwritten hr hs
    have hobs : observedOutputs s = .error .readBeforeFirstReset := by simp [observedOutputs, hread]
    exact ⟨hread, hobs, hostAct_read_of_error hobs⟩
  · exact ⟨hostActs_marked h, run_succ_of_refused (step_marked h)⟩

/-- Settles O15: there is no fault to answer, and an edge within the contract decodes to an accepted operation. -/
theorem definedEdgesNeverFail : Obligations.DefinedEdgesNeverFail := by
  refine ⟨fun s f => (nomatch f), fun s p rest hr he hp hwritten => ?_⟩
  obtain ⟨i, hd⟩ := Pins.inContract_iff_decodes.1 hp
  rcases hwritten with hs | hreset
  · exact ⟨_, step_of_accepted hr he hd (.inl hs)⟩
  · obtain ⟨v, hd⟩ := Pins.isReset_iff_decode.1 hreset
    exact ⟨_, step_of_accepted hr he hd (.inr ⟨v, rfl⟩)⟩

/-! ## Reads -/

theorem hostAct_read_of_ok {s : State} {o : Observation} (h : observedOutputs s = .ok o) :
    hostAct s .read = (.ok (some o), s) := by
  simp [hostAct, readPorts, h]

/-- Once the registers are written a read changes nothing: it answers, or the state is marked already. -/
theorem hostAct_read_of_written {s : State} (hs : s.resetSeen = true) : (hostAct s .read).2 = s := by
  cases hr : s.refused with
  | none => rw [hostAct_read_of_ok (observedOutputs_of_written hr hs)]
  | some r => rw [hostAct_marked hr]

/-- Registers once written stay so, whatever the host does. -/
theorem hostAct_keeps_resetSeen {s : State} (hs : s.resetSeen = true) (a : HostAct) :
    (hostAct s a).2.resetSeen = true := by
  cases a with
  | edge =>
    cases h : step s with
    | next t => rw [hostAct_edge_of_next h]; exact (step_next_readable h).2
    | fault f => exact nomatch f
    | refused r =>
      rw [hostAct_edge_of_refused h]
      cases r.marksTheRun <;> exact hs
  | read => rw [hostAct_read_of_written hs]; exact hs

/-- The reads of a run in a written state can be left out. -/
theorem hostActs_filter_edge {s : State} (hs : s.resetSeen = true) (acts : List HostAct) :
    (hostActs s acts).2 = (hostActs s (acts.filter (· == .edge))).2 := by
  induction acts generalizing s with
  | nil => rfl
  | cons a acts ih =>
    have ih := ih (hostAct_keeps_resetSeen hs a)
    cases a with
    | edge => simpa using ih
    | read => simpa [hostAct_read_of_written hs] using ih

/-- Settles O14: a read of a written state leaves it as it was, so reads drop out of every run. -/
theorem readsChangeNothing : Obligations.ReadsChangeNothing := by
  refine ⟨fun s hr hs => ?_, fun s acts hs => hostActs_filter_edge hs acts⟩
  have hobs := observedOutputs_of_written hr hs
  exact ⟨_, hobs, hostAct_read_of_ok hobs⟩

end Sys2Proof.Machine
end

section
/-! The obligations that compare two ways to compute one `STEP`: instances of different widths, and 32-bit software. -/

namespace Sys2Proof.Machine

/-! ## What an edge shows -/

/-- What the output ports show of the registers' values (30_encoding.md R53). -/
def StepValues.shown (c : Config) (v : StepValues) (valid : Bool) : Observation :=
  { yHp := v.hpOut, yLp := v.lp2New, yScaled := floorShr v.lp2New c.scaleShift, outValid := valid }

theorem observedOutputs_eq_shown {s : State} (hr : s.refused = none) (hs : s.resetSeen = true) :
    observedOutputs s = .ok (s.values.shown s.cfg s.outValidQ) :=
  observedOutputs_eq_values hr hs

/-- A `STEP` of a sample the port can carry, its registers read back as values. -/
theorem exec_step_values {s : State} {x : Int} (hs : s.resetSeen = true)
    (hx : Instr.wellFormed s.cfg.inW (.step x) = true) :
    ∃ t : State, exec (.step x) s = .next t ∧ t.values = s.stepValuesOf x ∧ t.cfg = s.cfg ∧
      t.refused = s.refused ∧ t.resetSeen = true ∧ t.outValidQ = true :=
  ⟨s.withValues (s.stepValuesOf x) true s.edges, exec_withEdges (.inl hs) hx,
    State.values_withValues (StepValues.next_fits hx s.values_fit), rfl, rfl, rfl, rfl⟩

/-! ## Instances of different widths -/

/-- The cascade reads the coefficients of its instance and nothing else of it. -/
theorem stepValues_congr {c d : Config} (hhp : c.hpCoeff = d.hpCoeff) (hlp : c.lpCoeff = d.lpCoeff)
    (hp lp1 lp2 x : Int) : stepValues c hp lp1 lp2 x = stepValues d hp lp1 lp2 x := by
  simp only [stepValues, hhp, hlp]

/-- Settles O20: the registers hold the exact values of the cascade at either width, and the cascade does not know the
width. -/
theorem resultsDoNotDependOnWidth : Obligations.ResultsDoNotDependOnWidth := by
  intro s t x hs ht hr hhpC hlpC hshift hhp hlp1 hlp2 hxs hxt
  obtain ⟨s', hexec, hvalues, hcfg, hr', hs', hvalid⟩ := exec_step_values hs hxs
  obtain ⟨t', hexec', hvalues', hcfg', hrt', ht', hvalid'⟩ := exec_step_values ht hxt
  have heq : s'.values = t'.values := by
    rw [hvalues, hvalues', State.stepValuesOf, State.stepValuesOf, stepValues_congr hhpC hlpC, hhp, hlp1, hlp2]
  have hobs : observedOutputs s' = observedOutputs t' := by
    cases hm : s.refused with
    | none =>
      rw [observedOutputs_eq_shown (hr'.trans hm) hs', observedOutputs_eq_shown (hrt'.trans (hr.symm.trans hm)) ht',
        heq, hvalid, hvalid', StepValues.shown, StepValues.shown, hcfg, hcfg', hshift]
    | some r =>
      rw [observedOutputs_marked (hr'.trans hm), observedOutputs_marked (hrt'.trans (hr.symm.trans hm))]
  exact ⟨s', t', hexec, hexec', congrArg StepValues.hpNew heq, congrArg StepValues.lp1New heq,
    congrArg StepValues.lp2New heq, congrArg StepValues.hpOut heq, hobs⟩

/-! ## The 32-bit software -/

/-- A stage of the software goes on with the exact value, or with nothing. -/
theorem software32Track_bind {α : Type} (s u : Int) (C : Nat) (f : Int → Option α) :
    (software32Track s u C >>= f) =
      if fitsInt32 (u - s) ∧ fitsInt32 ((u - s) * C) then f (track s u C) else none := by
  unfold software32Track
  split <;> rfl

/-- The software has the cascade's values exactly where nothing overflows. -/
theorem software32Step_eq_ite (c : Config) (hp lp1 lp2 x : Int) :
    software32Step c hp lp1 lp2 x =
      if Software32NoOverflow c hp lp1 lp2 x then some (stepValues c hp lp1 lp2 x) else none := by
  simp only [software32Step, software32Track_bind, ← ite_and]
  exact if_congr (by simp only [Software32NoOverflow, stepValues, and_assoc]) rfl rfl

/-- Settles O42: the software answers the cascade's values exactly under `SW32_NO_OVERFLOW`, and the registers hold
those values. -/
theorem agreesWithSoftwareWithoutOverflow : Obligations.AgreesWithSoftwareWithoutOverflow := by
  intro s x hs hx
  rw [software32Step_eq_ite]
  refine ⟨fun h => ?_, fun h => if_neg h⟩
  obtain ⟨t, hexec, hvalues, -⟩ := exec_step_values hs hx
  exact ⟨_, t, if_pos h, hexec, congrArg StepValues.hpNew hvalues, congrArg StepValues.hpOut hvalues,
    congrArg StepValues.lp1New hvalues, congrArg StepValues.lp2New hvalues⟩

end Sys2Proof.Machine
end

section
/-! The obligations about runs: `NOP` edges, held `RESET`s, legal runs and what a run shows. -/

namespace Sys2Proof.Machine

/-! ## One edge of a run -/

/-- The values after one edge; an edge that selects no operation changes none. -/
def StepValues.edge (c : Config) (v : StepValues) (p : Pins c.inW) : StepValues :=
  match decode p with
  | .ok i => v.next c i
  | .error _ => v

theorem StepValues.edge_of_decode {c : Config} {p : Pins c.inW} {i : Instr} (h : decode p = .ok i) (v : StepValues) :
    v.edge c p = v.next c i := by
  simp only [StepValues.edge, h]

theorem StepValues.edge_of_isNop {c : Config} {p : Pins c.inW} (h : p.isNop = true) (v : StepValues) :
    v.edge c p = v :=
  StepValues.edge_of_decode (Pins.isNop_iff_decode.1 h) v

/-- A step that answers shows its registers' values, and the observation goes on from there. -/
theorem observe_succ_of_next {s t : State} (h : step s = .next t) (n : Nat) :
    observe (n + 1) s = t.values.shown t.cfg t.outValidQ :: observe n t := by
  obtain ⟨hr, hs⟩ := step_next_readable h
  simp only [observe, h, observedOutputs_eq_shown hr hs]

/-- The step at a `NOP` edge, whatever stands on `x_in`. -/
theorem step_of_isNop {s : State} {p : Pins s.cfg.inW} {rest : List (Pins s.cfg.inW)} (hr : s.refused = none)
    (hs : s.resetSeen = true) (he : s.edges = p :: rest) (hp : p.isNop = true) :
    step s = .next (s.withValues s.values false rest) :=
  step_of_accepted hr he (Pins.isNop_iff_decode.1 hp) (.inl hs)

/-- The step at a `RESET` edge, from every state not marked refused. -/
theorem step_of_isReset {s : State} {p : Pins s.cfg.inW} {rest : List (Pins s.cfg.inW)} (hr : s.refused = none)
    (he : s.edges = p :: rest) (hp : p.isReset = true) :
    step s = .next (s.withValues .zero false rest) := by
  obtain ⟨v, hd⟩ := Pins.isReset_iff_decode.1 hp
  exact step_of_accepted hr he hd (.inr ⟨v, rfl⟩)

/-! ## Runs in the frame of a state

The inductions over a list of edges, from values `v` in the frame of `s`. -/

section
variable {s : State} {v : StepValues} {valid : Bool} (hr : s.refused = none) (hv : v.Fits s.cfg.inW)
include hr hv

theorem step_withValues {p : Pins s.cfg.inW} {i : Instr} (hd : decode p = .ok i) (rest : List (Pins s.cfg.inW)) :
    step (s.withValues v valid (p :: rest)) = .next (s.withValues (v.next s.cfg i) (outValidAfter i) rest) := by
  have hstep := step_of_accepted (s := s.withValues v valid (p :: rest)) hr rfl hd (.inl rfl)
  rw [State.values_withValues hv] at hstep
  exact hstep

theorem observe_withValues_succ {p : Pins s.cfg.inW} {i : Instr} (hd : decode p = .ok i)
    (rest : List (Pins s.cfg.inW)) (n : Nat) :
    observe (n + 1) (s.withValues v valid (p :: rest)) =
      (v.next s.cfg i).shown s.cfg (outValidAfter i) ::
        observe n (s.withValues (v.next s.cfg i) (outValidAfter i) rest) := by
  rw [observe_succ_of_next (step_withValues hr hv hd rest),
    State.values_withValues (StepValues.next_fits (wellFormed_of_decode hd) hv)]
  rfl

/-- The run over edges within the contract folds them over the values (70_reset_and_hazards.md R96). -/
theorem run_withValues {es : List (Pins s.cfg.inW)} (hc : es.all Pins.inContract = true)
    (rest : List (Pins s.cfg.inW)) :
    ∃ valid', Host.Core.run Sys2Proof.core es.length (s.withValues v valid (es ++ rest)) =
      .next (s.withValues (es.foldl (StepValues.edge s.cfg) v) valid' rest) := by
  induction es generalizing v valid with
  | nil => exact ⟨valid, rfl⟩
  | cons p es ih =>
    obtain ⟨hp, hc⟩ : p.inContract = true ∧ es.all Pins.inContract = true := by simpa using hc
    obtain ⟨i, hd⟩ := Pins.inContract_iff_decodes.1 hp
    rw [List.length_cons, List.foldl_cons, StepValues.edge_of_decode hd, List.cons_append,
      run_succ_of_next (step_withValues hr hv hd _)]
    exact ih (StepValues.next_fits (wellFormed_of_decode hd) hv) hc

/-- `NOP` edges after a cleared flag change nothing. -/
theorem run_withValues_of_isNop {ps : List (Pins s.cfg.inW)} (hps : ps.all Pins.isNop = true)
    (rest : List (Pins s.cfg.inW)) :
    Host.Core.run Sys2Proof.core ps.length (s.withValues v false (ps ++ rest)) =
      .next (s.withValues v false rest) := by
  induction ps with
  | nil => rfl
  | cons p ps ih =>
    obtain ⟨hp, hps⟩ : p.isNop = true ∧ ps.all Pins.isNop = true := by simpa using hps
    rw [List.length_cons, List.cons_append,
      run_succ_of_next (step_withValues hr hv (Pins.isNop_iff_decode.1 hp) _)]
    exact ih hps

/-- Over `NOP` edges the outputs stand still, without `out_valid`. -/
theorem observe_withValues_of_isNop {ps : List (Pins s.cfg.inW)} (hps : ps.all Pins.isNop = true)
    (rest : List (Pins s.cfg.inW)) :
    observe ps.length (s.withValues v valid (ps ++ rest)) = List.replicate ps.length (v.shown s.cfg false) := by
  induction ps generalizing valid with
  | nil => rfl
  | cons p ps ih =>
    obtain ⟨hp, hps⟩ : p.isNop = true ∧ ps.all Pins.isNop = true := by simpa using hps
    rw [List.length_cons, List.cons_append, observe_withValues_succ hr hv (Pins.isNop_iff_decode.1 hp)]
    exact congrArg (_ :: ·) (ih hps)

/-- The observation has a valid entry for each `STEP` edge (10_state.md R26). -/
theorem countP_outValid_observe {es : List (Pins s.cfg.inW)} (hc : es.all Pins.inContract = true) :
    (observe es.length (s.withValues v valid es)).countP Observation.outValid = es.countP Pins.isStep := by
  induction es generalizing v valid with
  | nil => rfl
  | cons p es ih =>
    obtain ⟨hp, hc⟩ : p.inContract = true ∧ es.all Pins.inContract = true := by simpa using hc
    obtain ⟨i, hd⟩ := Pins.inContract_iff_decodes.1 hp
    rw [List.length_cons, observe_withValues_succ hr hv hd, List.countP_cons, List.countP_cons,
      Pins.isStep_eq_outValidAfter hd, ih (StepValues.next_fits (wellFormed_of_decode hd) hv) hc, StepValues.shown]

end

/-- Further `RESET` edges after one change nothing. -/
theorem run_of_isReset {s : State} {ps : List (Pins s.cfg.inW)} (hr : s.refused = none)
    (hps : ps.all Pins.isReset = true) (rest : List (Pins s.cfg.inW)) :
    Host.Core.run Sys2Proof.core ps.length (s.withValues .zero false (ps ++ rest)) =
      .next (s.withValues .zero false rest) := by
  induction ps with
  | nil => rfl
  | cons p ps ih =>
    obtain ⟨hp, hps⟩ : p.isReset = true ∧ ps.all Pins.isReset = true := by simpa using hps
    have hstep := step_of_isReset (s := s.withValues .zero false (p :: ps ++ rest)) hr rfl hp
    exact (run_succ_of_next hstep ps.length).trans (ih hps)

/-- The run over edges within the contract, from a written state not marked refused. -/
theorem run_of_inContract {s : State} {es rest : List (Pins s.cfg.inW)} (hr : s.refused = none)
    (hs : s.resetSeen = true) (he : s.edges = es ++ rest) (hc : es.all Pins.inContract = true) :
    ∃ valid, Host.Core.run Sys2Proof.core es.length s =
      .next (s.withValues (es.foldl (StepValues.edge s.cfg) s.values) valid rest) := by
  obtain ⟨valid, hrun⟩ := run_withValues (valid := s.outValidQ) hr s.values_fit hc rest
  rw [← he, ← State.eq_withValues hs] at hrun
  exact ⟨valid, hrun⟩

/-! ## `NOP` edges -/

/-- Settles O8: the decoder's equation for `NOP`, its meaning, and the induction over a run of `NOP` edges. -/
theorem nopHoldsTheFilter : Obligations.NopHoldsTheFilter := by
  refine ⟨fun w x u => decode_of_nop rfl rfl, fun s hs => ?_, fun s ps rest hr hs he hps hne => ?_⟩
  · rw [exec_nop, whenWritten_written hs]
    rfl
  · obtain ⟨p, ps, rfl⟩ := List.exists_cons_of_ne_nil hne
    obtain ⟨hp, hps⟩ : p.isNop = true ∧ ps.all Pins.isNop = true := by simpa using hps
    rw [List.length_cons, run_succ_of_next (step_of_isNop hr hs he hp), ← State.withValues_self false rest hs]
    exact run_withValues_of_isNop hr s.values_fit hps rest

/-- Settles O24: the step at a `STEP` edge shows the cascade's values; `NOP` edges leave them, and a second `STEP` edge
starts from them. -/
theorem latencyIsOneEdge : Obligations.LatencyIsOneEdge := by
  have first {s : State} {p : Pins s.cfg.inW} {rest : List (Pins s.cfg.inW)} {x : Int} (hr : s.refused = none)
      (hs : s.resetSeen = true) (he : s.edges = p :: rest) (hd : decode p = .ok (.step x)) (n : Nat) :
      observe (n + 1) s = (s.stepValuesOf x).shown s.cfg true ::
        observe n (s.withValues (s.stepValuesOf x) true rest) := by
    have h := observe_withValues_succ (valid := s.outValidQ) hr s.values_fit hd rest n
    rw [← he, ← State.eq_withValues hs] at h
    exact h
  have fits {s : State} {p : Pins s.cfg.inW} {x : Int} (hd : decode p = .ok (.step x)) :
      (s.stepValuesOf x).Fits s.cfg.inW :=
    StepValues.next_fits (wellFormed_of_decode hd) s.values_fit
  constructor
  · intro s p nops rest x hr hs he hd hnops
    exact (first hr hs he hd _).trans (congrArg (_ :: ·) (observe_withValues_of_isNop hr (fits hd) hnops rest))
  · intro s p q rest x y hr hs he hdp hdq
    exact (first hr hs he hdp 1).trans (congrArg (_ :: ·) (observe_withValues_succ hr (fits hdp) hdq rest 0))

/-- Settles O28: a `NOP` edge rewrites the three signed ports with the values that they showed. -/
theorem samplingAtAnEdge : Obligations.SamplingAtAnEdge := by
  refine ⟨fun before after => by simp [Observation.admittedAtEdge], fun s p rest hr hs he hp => ?_⟩
  have hstep := step_of_isNop hr hs he hp
  obtain ⟨hr', hs'⟩ := step_next_readable hstep
  refine ⟨_, _, _, hstep, observedOutputs_eq_shown hr hs, observedOutputs_eq_shown hr' hs', fun seen hseen => ?_⟩
  rw [State.values_withValues s.values_fit] at hseen
  simp only [Observation.admittedAtEdge, StepValues.shown, State.withValues_cfg, Bool.or_self, Bool.and_eq_true,
    beq_iff_eq] at hseen
  obtain ⟨⟨⟨hHp, hLp⟩, hScaled⟩, -⟩ := hseen
  exact ⟨hHp, hLp, hScaled⟩

/-- Settles O36: an edge that is a `NOP` changes no value, so the fold over the values does not see it. -/
theorem nopEdgesAffectNoResult : Obligations.NopEdgesAffectNoResult := by
  intro s hr hs hc
  have hfold : (s.edges.filter (fun p => !p.isNop)).foldl (StepValues.edge s.cfg) s.values =
      s.edges.foldl (StepValues.edge s.cfg) s.values := by
    rw [List.foldl_filter]
    congr 1
    funext v p
    cases hp : p.isNop with
    | false => rfl
    | true => exact (StepValues.edge_of_isNop hp v).symm
  have hc' : (s.edges.filter (fun p => !p.isNop)).all Pins.inContract = true :=
    List.all_eq_true.2 fun p hp => List.all_eq_true.1 hc p (List.mem_of_mem_filter hp)
  obtain ⟨valid, hrun⟩ := run_of_inContract (rest := []) hr hs (List.append_nil _).symm hc
  obtain ⟨valid', hrun'⟩ := run_of_inContract (s := { s with edges := s.edges.filter (fun p => !p.isNop) })
    (rest := []) hr hs (List.append_nil _).symm hc'
  have hvalues : State.values { s with edges := s.edges.filter (fun p => !p.isNop) } = s.values := rfl
  rw [hvalues, hfold] at hrun'
  exact ⟨_, _, hrun, hrun', rfl, rfl, rfl, rfl⟩

/-! ## `RESET` edges -/

/-- Settles O11: what a `RESET` edge writes does not depend on the state, so further ones change nothing. -/
theorem heldResetEqualsOneReset : Obligations.HeldResetEqualsOneReset := by
  intro s ps rest hr he hps hne
  obtain ⟨p, ps, rfl⟩ := List.exists_cons_of_ne_nil hne
  obtain ⟨hp, hps⟩ : p.isReset = true ∧ ps.all Pins.isReset = true := by simpa using hps
  rw [List.length_cons, run_succ_of_next (step_of_isReset hr he hp)]
  exact run_of_isReset hr hps rest

/-- Settles O34: the `RESET` edge leaves zeros, and the `STEP` edge runs the cascade from them. -/
theorem firstStepAfterResetStartsFromZero : Obligations.FirstStepAfterResetStartsFromZero := by
  intro s p q rest x hr he hp hd
  have hzero := StepValues.zero_fits s.cfg.inW
  have hfits := StepValues.next_fits (wellFormed_of_decode hd) hzero
  refine ⟨_, _, _, _, ?_, State.values_withValues (valid := true) (rest := rest) hfits⟩
  exact (run_succ_of_next (step_of_isReset hr he hp) 1).trans (run_succ_of_next (step_withValues hr hzero hd rest) 0)

/-- What the next step answers is all that an observation depends on. -/
theorem observe_congr {s t : State} (h : step s = step t) (n : Nat) : observe n s = observe n t := by
  cases n with
  | zero => rfl
  | succ n => simp only [observe, h]

/-- Settles O35: the step at a `RESET` edge answers the same state whatever stood in the registers, or the mark. -/
theorem resetErasesThePast : Obligations.ResetErasesThePast := by
  intro s p rest hp lp1 lp2 hpOut valid seen n he hreset
  let s' : State := { s with
    hpState := hp, lp1State := lp1, lp2State := lp2, hpOutQ := hpOut, outValidQ := valid, resetSeen := seen }
  have hstep : step s' = step s := by
    rcases Option.eq_none_or_eq_some s.refused with hr | ⟨r, hr⟩
    · exact (step_of_isReset (s := s') hr he hreset).trans (step_of_isReset hr he hreset).symm
    · exact (step_marked (s := s') hr).trans (step_marked hr).symm
  exact observe_congr hstep n

/-! ## Legal runs from a `RESET` -/

/-- Settles O32: the `RESET` edge answers from every state, the edges after it from a written one; the `RESET` leaves
zeros, and every step keeps the ranges. -/
theorem legalRunsStayInRange : Obligations.LegalRunsStayInRange := by
  intro s p ps hr he hp hc k hk
  have hc' : (ps.take k).all Pins.inContract = true :=
    List.all_eq_true.2 fun q hq => List.all_eq_true.1 hc q (List.mem_of_mem_take hq)
  have hzero := StepValues.zero_fits s.cfg.inW
  obtain ⟨valid, hrun⟩ := run_withValues (valid := false) hr hzero hc' (ps.drop k)
  rw [List.length_take_of_le hk, List.take_append_drop] at hrun
  have hstart : (s.withValues .zero false ps).InRange := by
    rw [State.inRange_iff, State.values_withValues hzero]
    exact StepValues.zero_inRange _
  have keep (u u' : State) (h : u.resetSeen = true ∧ u.InRange) (hu : step u = .next u') :=
    everyStepKeepsTheRanges u u' (fun _ => h.2) hu
  exact ⟨_, (run_succ_of_next (step_of_isReset hr he hp) k).trans hrun, (run_keeps keep k _ _ ⟨rfl, hstart⟩ hrun).2,
    List.length_drop⟩

/-- A run that answers does so one step after the other. -/
theorem run_succ_eq_next {s t : State} {k : Nat} (h : Host.Core.run Sys2Proof.core (k + 1) s = .next t) :
    ∃ u, step s = .next u ∧ Host.Core.run Sys2Proof.core k u = .next t := by
  cases hstep : step s with
  | next u => exact ⟨u, rfl, (run_succ_of_next hstep k).symm.trans h⟩
  | fault f => exact nomatch f
  | refused r => exact nomatch (run_succ_of_refused hstep k).symm.trans h

/-- A run that answers shows one entry for each edge. -/
theorem length_observe_of_run {n : Nat} {s t : State} (h : Host.Core.run Sys2Proof.core n s = .next t) :
    (observe n s).length = n := by
  induction n generalizing s with
  | zero => rfl
  | succ n ih =>
    obtain ⟨u, hstep, hrun⟩ := run_succ_eq_next h
    rw [observe_succ_of_next hstep, List.length_cons, ih hrun]

/-- Entry `k` of the observation is what the state after `k + 1` edges shows. -/
theorem getElem?_observe_of_run {k n : Nat} {s t : State} (h : Host.Core.run Sys2Proof.core (k + 1) s = .next t)
    (hk : k < n) : ∃ o, observedOutputs t = .ok o ∧ (observe n s)[k]? = some o := by
  obtain ⟨n, rfl⟩ : ∃ m, n = m + 1 := ⟨n - 1, by omega⟩
  obtain ⟨u, hstep, hrun⟩ := run_succ_eq_next h
  rw [observe_succ_of_next hstep]
  induction k generalizing s u n with
  | zero =>
    cases hrun
    obtain ⟨hr, hs⟩ := step_next_readable hstep
    exact ⟨_, observedOutputs_eq_shown hr hs, rfl⟩
  | succ k ih =>
    obtain ⟨n, rfl⟩ : ∃ m, n = m + 1 := ⟨n - 1, by omega⟩
    obtain ⟨u', hstep', hrun'⟩ := run_succ_eq_next hrun
    rw [List.getElem?_cons_succ, observe_succ_of_next hstep']
    exact ih hrun n (by omega) u' hstep' hrun'

/-- Settles O33: a legal run answers after each of its edges, and each answer is an entry of the observation. -/
theorem observationFollowsTheRun : Obligations.ObservationFollowsTheRun := by
  refine ⟨fun s => step_of_no_edges, fun s p ps hr he hp hc => ⟨?_, fun k hk => ?_⟩⟩
  · obtain ⟨t, hrun, -⟩ := legalRunsStayInRange s p ps hr he hp hc ps.length le_rfl
    exact length_observe_of_run hrun
  · obtain ⟨t, hrun, -⟩ := legalRunsStayInRange s p ps hr he hp hc k hk
    obtain ⟨o, hobs, hentry⟩ := getElem?_observe_of_run hrun (Nat.lt_succ_of_le hk)
    exact ⟨t, o, hrun, hobs, hentry⟩

/-! ## The valid outputs of a run -/

theorem countP_isStep_flatten {w : Nat} {ticks : List (List (Pins w))} (h : hostOneStepPerTick ticks = true) :
    ticks.flatten.countP Pins.isStep = ticks.length := by
  have hone : ∀ tick ∈ ticks, tick.countP Pins.isStep = 1 := by
    simpa [hostOneStepPerTick, List.countP_eq_length_filter] using h
  rw [List.countP_flatten, List.map_congr_left hone, List.map_const', List.sum_replicate, smul_eq_mul, mul_one]

/-- Settles O37: the valid entries are counted by the `STEP` edges, and those by the ticks. -/
theorem oneValidOutputPerTick : Obligations.OneValidOutputPerTick := by
  intro s ticks hr hs he hc hticks
  have hcount := countP_outValid_observe (valid := s.outValidQ) hr s.values_fit hc
  rw [← State.eq_withValues hs] at hcount
  rw [← List.countP_eq_length_filter, hcount, he, countP_isStep_flatten hticks]

/-! ## The registers that no port shows -/

/-- The outputs, or the refusal to show them, come from other fields. -/
theorem observedOutputs_of_hidden (s : State) (hp : BitVec s.cfg.inW) (lp1 : BitVec (s.cfg.inW + 1)) :
    observedOutputs { s with hpState := hp, lp1State := lp1 } = observedOutputs s := by
  obtain ⟨cfg, hp₀, lp1₀, lp2, hpOut, valid, seen, es, mark⟩ := s
  cases mark with
  | some r => rfl
  | none => cases seen <;> rfl

/-- The reference instance after a `RESET`, with given bits in the two registers that no port shows. -/
def hiddenState (hp : BitVec 32) (lp1 : BitVec 33) : State :=
  { State.reset with hpState := hp, lp1State := lp1 }

/-- What a `STEP 0` from such a state shows: the cascade of the two registers' values. -/
theorem observed_step_zero_of_hidden (hp : BitVec 32) (lp1 : BitVec 33) :
    ∃ t, exec (.step 0) (hiddenState hp lp1) = .next t ∧
      observedOutputs t = .ok ((stepValues Config.reference hp.toInt lp1.toInt 0 0).shown Config.reference true) := by
  have hx : Instr.wellFormed (hiddenState hp lp1).cfg.inW (.step 0) = true := decide_eq_true (fitsSigned_zero 32)
  obtain ⟨t, hexec, hvalues, hcfg, hr, hs, hvalid⟩ := exec_step_values rfl hx
  refine ⟨t, hexec, ?_⟩
  rw [observedOutputs_eq_shown hr hs, hvalues, hcfg, hvalid]
  rfl

/-- Two such states whose cascades show different values show different outputs after a `STEP 0`. -/
theorem step_zero_tells_hidden_apart {hp hp' : BitVec 32} {lp1 lp1' : BitVec 33}
    (hne : (stepValues Config.reference hp.toInt lp1.toInt 0 0).hpOut ≠
        (stepValues Config.reference hp'.toInt lp1'.toInt 0 0).hpOut ∨
      (stepValues Config.reference hp.toInt lp1.toInt 0 0).lp2New ≠
        (stepValues Config.reference hp'.toInt lp1'.toInt 0 0).lp2New) :
    ∃ t u, exec (.step 0) (hiddenState hp lp1) = .next t ∧ exec (.step 0) (hiddenState hp' lp1') = .next u ∧
      observedOutputs t ≠ observedOutputs u := by
  obtain ⟨t, ht, hobs⟩ := observed_step_zero_of_hidden hp lp1
  obtain ⟨u, hu, hobs'⟩ := observed_step_zero_of_hidden hp' lp1'
  refine ⟨t, u, ht, hu, fun heq => ?_⟩
  have hshown := Except.ok.inj (hobs.symm.trans (heq.trans hobs'))
  rcases hne with h | h
  · exact h (congrArg Observation.yHp hshown)
  · exact h (congrArg Observation.yLp hshown)

/-- Settles O27: no port reads the two registers. With `hp_state` 0 and 1000, a `STEP 0` shows 0 and -937 on `y_hp`;
with `lp1_state` 0 and 1000 it shows 0 and 250 on `y_lp`. -/
theorem hiddenRegistersShowOnlyLater : Obligations.HiddenRegistersShowOnlyLater :=
  ⟨observedOutputs_of_hidden,
    ⟨hiddenState 0#32 0#33, 1000#32, 0, step_zero_tells_hidden_apart (.inl (by decide))⟩,
    ⟨hiddenState 0#32 0#33, 1000#33, 0, step_zero_tells_hidden_apart (.inr (by decide))⟩⟩

end Sys2Proof.Machine
end

section
/-! The obligations of 40_operations.md R71: a stage and the cascade settle under a constant input. -/

namespace Sys2Proof.Machine

/-! ## A stage under a constant input -/

/-- A stage whose input is held at `u`, as a map of its state. -/
def trackOn (u : Int) (C : Nat) (s : Int) : Int := track s u C

section
variable {u : Int} {C : Nat} (hC1 : 1 ≤ C) (hC : C ≤ 256)
include hC1 hC

/-- From above the stage reaches its input, by at least 1 at each step. -/
theorem iterate_trackOn_from_above {s : Int} {n : Nat} (h : u ≤ s) (hn : (s - u).toNat ≤ n) :
    (trackOn u C)^[n] s = u := by
  induction n generalizing s with
  | zero => exact le_antisymm (show s ≤ u by omega) h
  | succ n ih =>
    rw [Function.iterate_succ_apply]
    rcases h.eq_or_lt with rfl | h
    · rw [trackOn, track_self]
      exact ih le_rfl (by omega)
    · obtain ⟨low, high⟩ : u ≤ trackOn u C s ∧ trackOn u C s ≤ s - 1 := track_from_above hC1 hC h
      exact ih low (by omega)

omit hC1 in
theorem iterate_trackOn_le {s : Int} (h : s ≤ u) (n : Nat) : (trackOn u C)^[n] s ≤ u := by
  induction n generalizing s with
  | zero => exact h
  | succ n ih => exact ih (track_from_below hC h).2

omit hC1 in
theorem iterate_trackOn_le_succ {s : Int} (h : s ≤ u) (n : Nat) :
    (trackOn u C)^[n] s ≤ (trackOn u C)^[n + 1] s := by
  rw [Function.iterate_succ_apply']
  exact (track_from_below hC (iterate_trackOn_le hC h n)).1

omit hC1 in
/-- From below the stage rises by at least 1 at each step until it stands still. -/
theorem trackOn_iterate_from_below {s : Int} {n : Nat} (h : s ≤ u) (hn : (u - s).toNat ≤ n) :
    trackOn u C ((trackOn u C)^[n] s) = (trackOn u C)^[n] s := by
  induction n generalizing s with
  | zero =>
    obtain rfl : s = u := le_antisymm h (by omega)
    exact track_self s C
  | succ n ih =>
    obtain ⟨low, high⟩ : s ≤ trackOn u C s ∧ trackOn u C s ≤ u := track_from_below hC h
    rw [Function.iterate_succ_apply]
    rcases low.eq_or_lt with hfix | hrise
    · rw [← hfix, Function.iterate_fixed hfix.symm, ← hfix]
    · exact ih high (by omega)

/-- From below the stage stands, from `u - s` steps on, at a value within the band of `track_eq_self_iff`. -/
theorem trackOn_settles_from_below {s : Int} (h : s ≤ u) :
    ∃ v, u - ((255 / C : Nat) : Int) ≤ v ∧ v ≤ u ∧ ∀ n, (u - s).toNat ≤ n → (trackOn u C)^[n] s = v := by
  have hfix := trackOn_iterate_from_below hC h (le_refl (u - s).toNat)
  obtain ⟨-, band⟩ := (track_eq_self_iff hC1 hC).1 hfix
  refine ⟨(trackOn u C)^[(u - s).toNat] s, by omega, iterate_trackOn_le hC h _, fun n hn => ?_⟩
  obtain ⟨k, rfl⟩ := Nat.exists_eq_add_of_le' hn
  rw [Function.iterate_add_apply, Function.iterate_fixed hfix]

/-- From either side the stage stands, from its distance to the input on, at a value within the band. -/
theorem trackOn_settles (s : Int) :
    ∃ v, u - ((255 / C : Nat) : Int) ≤ v ∧ v ≤ u ∧ ∀ n, (u - s).natAbs ≤ n → (trackOn u C)^[n] s = v := by
  rcases le_total s u with h | h
  · obtain ⟨v, low, high, hv⟩ := trackOn_settles_from_below hC1 hC h
    exact ⟨v, low, high, fun n hn => hv n (by omega)⟩
  · exact ⟨u, sub_le_self u (Int.natCast_nonneg _), le_rfl, fun n hn => iterate_trackOn_from_above hC1 hC h (by omega)⟩

/-- A stage whose input settles, settles too. -/
theorem settles_of_input_settles {a w : Nat → Int} {N : Nat} (hstep : ∀ n, a (n + 1) = track (a n) (w n) C)
    (hw : ∀ n, N ≤ n → w n = u) :
    ∃ M v, (0 ≤ u - v ∧ u - v ≤ ((255 / C : Nat) : Int)) ∧ ∀ n, M ≤ n → a n = v := by
  have hiter (k : Nat) : a (N + k) = (trackOn u C)^[k] (a N) := by
    induction k with
    | zero => rfl
    | succ k ih => rw [← add_assoc, hstep, hw _ (Nat.le_add_right N k), ih, Function.iterate_succ_apply', trackOn]
  obtain ⟨v, low, high, hv⟩ := trackOn_settles (u := u) hC1 hC (a N)
  refine ⟨N + (u - a N).natAbs, v, by omega, fun n hn => ?_⟩
  obtain ⟨k, rfl⟩ := Nat.exists_eq_add_of_le (show N ≤ n by omega)
  rw [hiter, hv k (by omega)]

end

/-! ## The registers under a held sample -/

/-- One `STEP` of the sample `x`, as a map of the registers' values. -/
def StepValues.stepOn (c : Config) (x : Int) (v : StepValues) : StepValues := v.next c (.step x)

section
variable (c : Config) (x : Int) (v : StepValues) (n : Nat)

theorem StepValues.iterate_stepOn_hpNew :
    ((stepOn c x)^[n] v).hpNew = (trackOn x c.hpCoeff)^[n] v.hpNew :=
  have hsemiconj : Function.Semiconj StepValues.hpNew (stepOn c x) (trackOn x c.hpCoeff) := fun _ => rfl
  (hsemiconj.iterate_right n).eq v

theorem StepValues.iterate_stepOn_succ_hpNew :
    ((stepOn c x)^[n + 1] v).hpNew = track ((stepOn c x)^[n] v).hpNew x c.hpCoeff := by
  rw [Function.iterate_succ_apply']
  rfl

theorem StepValues.iterate_stepOn_succ_hpOut :
    ((stepOn c x)^[n + 1] v).hpOut = x - ((stepOn c x)^[n + 1] v).hpNew := by
  rw [Function.iterate_succ_apply']
  rfl

theorem StepValues.iterate_stepOn_succ_lp1New :
    ((stepOn c x)^[n + 1] v).lp1New =
      track ((stepOn c x)^[n] v).lp1New ((stepOn c x)^[n + 1] v).hpOut c.lpCoeff := by
  rw [Function.iterate_succ_apply']
  rfl

theorem StepValues.iterate_stepOn_succ_lp2New :
    ((stepOn c x)^[n + 1] v).lp2New =
      track ((stepOn c x)^[n] v).lp2New ((stepOn c x)^[n + 1] v).lp1New c.lpCoeff := by
  rw [Function.iterate_succ_apply']
  rfl

end

theorem foldl_replicate_eq_iterate {α β : Type} (f : α → β → α) (b : β) (n : Nat) (a : α) :
    (List.replicate n b).foldl f a = (f · b)^[n] a := by
  induction n generalizing a with
  | zero => rfl
  | succ n ih => exact ih (f a b)

theorem StepValues.edge_fits {c : Config} {v : StepValues} (p : Pins c.inW) (hv : v.Fits c.inW) :
    (v.edge c p).Fits c.inW := by
  unfold StepValues.edge
  split
  · exact StepValues.next_fits (wellFormed_of_decode ‹_›) hv
  · exact hv

theorem StepValues.foldl_edge_fits {c : Config} {v : StepValues} (es : List (Pins c.inW)) (hv : v.Fits c.inW) :
    (es.foldl (StepValues.edge c) v).Fits c.inW := by
  induction es generalizing v with
  | nil => exact hv
  | cons p es ih => exact ih (StepValues.edge_fits p hv)

/-- The run over a sample held for `n` edges iterates its `STEP` on the registers' values. -/
theorem run_of_held_sample {s : State} {x : Int} {n : Nat} (hr : s.refused = none) (hs : s.resetSeen = true)
    (hx : Instr.wellFormed s.cfg.inW (.step x) = true)
    (he : s.edges = List.replicate n (encode s.cfg.inW (.step x))) :
    ∃ t, Host.Core.run Sys2Proof.core n s = .next t ∧ t.values = (StepValues.stepOn s.cfg x)^[n] s.values := by
  have hd := decode_encode hx
  have hc : (List.replicate n (encode s.cfg.inW (.step x))).all Pins.inContract = true :=
    List.all_eq_true.2 fun p hp => Pins.inContract_iff_decodes.2 ⟨_, List.eq_of_mem_replicate hp ▸ hd⟩
  obtain ⟨valid, hrun⟩ := run_of_inContract (rest := []) hr hs (he.trans (List.append_nil _).symm) hc
  rw [List.length_replicate] at hrun
  refine ⟨_, hrun, ?_⟩
  rw [State.values_withValues (StepValues.foldl_edge_fits _ s.values_fit), foldl_replicate_eq_iterate]
  congr 1
  funext v
  exact StepValues.edge_of_decode hd v

/-- Settles O38: a stage moves by at least 1 until it stands within its band, and the high-passed signal is the rest
that the settled tracker leaves. -/
theorem constantInputSettles : Obligations.ConstantInputSettles := by
  refine ⟨fun s u C hC1 hC => ⟨fun h => ?_, fun h => ?_⟩, fun c x hx => ?_⟩
  · exact ⟨(track_from_above hC1 hC h).2, fun n hn => iterate_trackOn_from_above hC1 hC h.le hn⟩
  · obtain ⟨v, low, high, hv⟩ := trackOn_settles_from_below hC1 hC h.le
    exact ⟨v, low, high, iterate_trackOn_le_succ hC h.le, hv⟩
  · obtain ⟨hC1, hC⟩ := c.hpCoeff_legal
    obtain ⟨hp, low, high, hsettled⟩ := trackOn_settles (u := x) hC1 hC 0
    refine ⟨x - hp, by omega, by omega, fun hneg => ?_, ?_⟩
    · have hreached := iterate_trackOn_from_above hC1 hC hneg (le_refl (0 - x).toNat)
      rw [hsettled _ (by omega)] at hreached
      omega
    · rintro s n rfl hr hs h0 hn he
      obtain ⟨t, hrun, hvalues⟩ := run_of_held_sample hr hs hx he
      have hstart : s.values.hpNew = 0 := by
        rw [State.values, h0, BitVec.toInt_zero]
      refine ⟨t, hrun, ?_⟩
      calc t.hpOutQ.toInt = ((StepValues.stepOn s.cfg x)^[n + 1] s.values).hpOut := congrArg StepValues.hpOut hvalues
        _ = x - (trackOn x s.cfg.hpCoeff)^[n + 1] 0 := by
          rw [StepValues.iterate_stepOn_succ_hpOut, StepValues.iterate_stepOn_hpNew, hstart]
        _ = x - hp := by rw [hsettled _ (by omega)]

/-- Settles O39: each stage's input settles, the next stage after it. -/
theorem wholeCascadeSettles : Obligations.WholeCascadeSettles := by
  intro s x hr hs hx
  obtain ⟨hC1, hC⟩ := s.cfg.hpCoeff_legal
  obtain ⟨lC1, lC⟩ := s.cfg.lpCoeff_legal
  let after (n : Nat) : StepValues := (StepValues.stepOn s.cfg x)^[n] s.values
  obtain ⟨N, hp, hpBand, hpSettled⟩ := settles_of_input_settles (a := fun n => (after n).hpNew) (w := fun _ => x)
    (N := 0) hC1 hC (StepValues.iterate_stepOn_succ_hpNew s.cfg x s.values) (fun _ _ => rfl)
  obtain ⟨N1, lp1, lp1Band, lp1Settled⟩ := settles_of_input_settles (u := x - hp) (a := fun n => (after n).lp1New)
    (w := fun n => (after (n + 1)).hpOut) (N := N) lC1 lC (StepValues.iterate_stepOn_succ_lp1New s.cfg x s.values)
    (fun n hn => (StepValues.iterate_stepOn_succ_hpOut s.cfg x s.values n).trans
      (congrArg (x - ·) (hpSettled (n + 1) (by omega))))
  obtain ⟨N2, lp2, lp2Band, lp2Settled⟩ := settles_of_input_settles (u := lp1) (a := fun n => (after n).lp2New)
    (w := fun n => (after (n + 1)).lp1New) (N := N1) lC1 lC (StepValues.iterate_stepOn_succ_lp2New s.cfg x s.values)
    (fun n hn => lp1Settled (n + 1) (by omega))
  refine ⟨N + N1 + N2, hp, lp1, lp2, hpBand, lp1Band, lp2Band, fun n hn => ?_⟩
  obtain ⟨t, hrun, hvalues⟩ := run_of_held_sample (n := n)
    (s := { s with edges := List.replicate n (encode s.cfg.inW (.step x)) }) hr hs hx rfl
  exact ⟨t, hrun, (congrArg StepValues.hpNew hvalues).trans (hpSettled n (by omega)),
    (congrArg StepValues.lp1New hvalues).trans (lp1Settled n (by omega)),
    (congrArg StepValues.lp2New hvalues).trans (lp2Settled n (by omega))⟩

end Sys2Proof.Machine
end
